-- ==== Sys2Proof/Word.lean ====
section
/-! DEFINITION. The word types of the block. Bits are numbered by weight, bit 0 the least significant (R11). -/

namespace Sys2Proof

/-- The addressable unit of the BitBuffer, 8 bits (R40, R45). -/
abbrev Byte := BitVec 8

/-- A one-bit port or one-bit record field (R26, R27). -/
abbrev Bit := BitVec 1

/-- The timestamp type `TS` of R9, open and opaque in the spec (D14): a token that the block only passes on.
DESIGN CHOICE (log 5): a natural number, on which no definition of the machine computes. -/
abbrev TS := Nat

end Sys2Proof
end

