-- ==== Sys2Proof/Config.lean ====
section
/-! DEFINITION. The constants of R10, the parameters of R9, and the free values (constants with no body). -/

namespace Sys2Proof.Config

/-- Row of the preamble byte (R10). -/
abbrev preambleRow : Nat := 0
/-- Row of the frame (R10). -/
abbrev frameRow : Nat := 1
/-- Row whose byte 4 must repeat the frame's (R10). -/
abbrev repeatRow : Nat := 12
/-- Least number of rows of an acceptable buffer (R10). -/
abbrev minRows : Nat := 13
/-- Least number of bytes of a row the length guard covers (R10). -/
abbrev minRowBytes : Nat := 5
/-- `VAL_MASK` (R10). -/
abbrev valMask : Byte := 0x78#8
/-- `BATT_MASK` (R10). -/
abbrev battMask : Byte := 0x80#8
/-- `UNK1_MASK` (R10). -/
abbrev unk1Mask : Byte := 0x40#8
/-- `CH_MASK` (R10). -/
abbrev chMask : Byte := 0x30#8
/-- `UNK2_MASK` (R10). -/
abbrev unk2Mask : Byte := 0xF0#8
/-- `MODEL_TAG` (R10, R122). -/
def modelTag : String := "Mebus/433"

/-- The three values of `LEN_GUARD_SCOPE` (R9, R81). -/
inductive LenGuardScope where
  /-- rows 0..12: the spec's decision -/
  | first13
  /-- only the rows and bytes that are read -/
  | accessed
  /-- every row of the buffer -/
  | allRows
  deriving DecidableEq, Repr

/-- `LEN_GUARD_SCOPE` as the spec decides it (R9, R81, D5). -/
def lenGuardScope : LenGuardScope := .first13

/-- How far `MAX_ROWS` exceeds 13: open (R9, D3), so a constant with no body (log 6). -/
opaque maxRowsAboveMin : Nat
/-- How far `MAX_ROW_BYTES` exceeds 5: open (R9, D3), so a constant with no body (log 6). -/
opaque maxRowBytesAboveMin : Nat

/-- `MAX_ROWS`, an integer of at least 13 (R9). -/
def maxRows : Nat := maxRowsAboveMin + 13
/-- `MAX_ROW_BYTES`, an integer of at least 5 (R9). -/
def maxRowBytes : Nat := maxRowBytesAboveMin + 5

/-! Free values (U1): what an output port holds where the spec gives it none. The argument is the counter
`freeCtr` of the state, so that each use is a fresh value (log 11). -/

/-- Free value of `ret` outside a completion (U1). -/
opaque freeRet : Nat → Bit
/-- Free value of `rec_time` (U1). -/
opaque freeTime : Nat → TS
/-- Free value of `rec_rc` (U1). -/
opaque freeRc : Nat → Byte
/-- Free value of `rec_channel` (U1). -/
opaque freeChannel : Nat → BitVec 3
/-- Free value of `rec_battery` (U1). -/
opaque freeBattery : Nat → Bit
/-- Free value of `rec_temp` (U1). -/
opaque freeTemp : Nat → BitVec 12
/-- Free value of `rec_humidity` (U1). -/
opaque freeHumidity : Nat → Byte
/-- Free value of `rec_unknown1` (U1). -/
opaque freeUnknown1 : Nat → Bit
/-- Free value of `rec_unknown2` (U1). -/
opaque freeUnknown2 : Nat → BitVec 4

/-- The string form of a timestamp: open (R127, U13, log 22). -/
opaque timeText : TS → String
/-- `HUM_UNIT_ANNOTATION`: its text is open (R124, U14, log 22). -/
opaque humUnitAnnotation : String

end Sys2Proof.Config
end

