-- ==== Sys2Proof/Syntax.lean ====
section
/-! DEFINITION. The operations of the block: one constructor for each row of spec/opcode_table.json (R64).
None has an operand field: the operands are the ports and the transaction's signals (R60, R64). -/

namespace Sys2Proof

/-- The fifteen operations of R64, in the table's order. -/
inductive Instr where
  /-- DECODE: the one requestable operation (R140). -/
  | decode
  /-- VALIDATE: the verdict (R80). -/
  | validate
  /-- CHK_LEN: the length guard (R81). -/
  | chkLen
  /-- CHK_PREAMBLE (R82). -/
  | chkPreamble
  /-- CHK_NONZERO (R83). -/
  | chkNonzero
  /-- CHK_MASK (R84). -/
  | chkMask
  /-- CHK_REPEAT (R85). -/
  | chkRepeat
  /-- EXT_TEMP (R101). -/
  | extTemp
  /-- EXT_HUM (R103). -/
  | extHum
  /-- EXT_RC (R104). -/
  | extRc
  /-- EXT_CH (R105). -/
  | extCh
  /-- EXT_BATT (R106). -/
  | extBatt
  /-- EXT_UNK1 (R107). -/
  | extUnk1
  /-- EXT_UNK2 (R108). -/
  | extUnk2
  /-- BUILD_RECORD (R120). -/
  | buildRecord
  deriving DecidableEq, Repr

end Sys2Proof
end

