-- ==== Sys2Proof/WellFormed.lean ====
section
/-! DEFINITION. Well-formedness of an operation as a request. No operation has an operand to check; what can be
ill-formed is a request for an operation that no request selects (R60, R64). -/

namespace Sys2Proof

/-- An operation is well formed as a request when an encoding of its own selects it. Only DECODE is: the other
fourteen are stages of a DECODE, and no bit of their own selects them (R60, R64). -/
def Instr.wf (i : Instr) : Bool :=
  match i with
  | .decode => true
  | .validate => false
  | .chkLen => false
  | .chkPreamble => false
  | .chkNonzero => false
  | .chkMask => false
  | .chkRepeat => false
  | .extTemp => false
  | .extHum => false
  | .extRc => false
  | .extCh => false
  | .extBatt => false
  | .extUnk1 => false
  | .extUnk2 => false
  | .buildRecord => false

theorem Instr.wf_iff_decode (i : Instr) : i.wf = true ↔ i = .decode := by
  cases i <;> decide

end Sys2Proof
end

