-- ==== Sys2Proof/Decode.lean ====
section
/-! DEFINITION. The three encodings of 30_encoding.md: the request bit (R60) with its encoder, the 40-bit frame
word (R61) with its encoder, and the opcode table's data on each operation (R62, R64). -/

namespace Sys2Proof

/-! ## Format REQ (R60) -/

/-- What the decoder answers on the request word: an operation, or, by name, no request. -/
inductive DecodeResult where
  /-- the operation the word selects -/
  | selects (i : Instr)
  /-- `req` = 0, which requests nothing and is no illegal encoding (R60, R65) -/
  | noRequest
  deriving DecidableEq, Repr

/-- The request word is the one bit `req`: 1 selects DECODE, 0 requests nothing (R60). Total: there is no other word. -/
def decode (w : Bit) : DecodeResult :=
  if w = 1#1 then .selects .decode else .noRequest

/-- The request word of an operation: the table's match 0x1 under mask 0x1, the same for every row (R64).
Only a well-formed request, DECODE, is read back from it. -/
def encode (_ : Instr) : Bit := 1#1

/-- The request bit of a table word: bit 0 (R60). The table's mask is 0x1, so no other bit selects anything (log 16). -/
def requestBit (w : Nat) : Bit := BitVec.ofNat 1 w

/-- The instruction the decoder reads from a table word. The length plays no part: the request is one bit and has no
operand words (R60, R69). -/
def decodeTableWord (_nbits w : Nat) : Option Instr :=
  match decode (requestBit w) with
  | .selects i => some i
  | .noRequest => none

theorem decode_one : decode 1#1 = .selects .decode := rfl
theorem decode_zero : decode 0#1 = .noRequest := rfl

theorem decode_selects {w : Bit} {i : Instr} (h : decode w = .selects i) : w = 1#1 ∧ i = .decode := by
  unfold decode at h
  split at h
  · next hw => exact ⟨hw, by cases h; rfl⟩
  · cases h

theorem decode_noRequest {w : Bit} : decode w = .noRequest ↔ w = 0#1 := by
  unfold decode
  split
  · next hw => subst hw; decide
  · next hw => exact ⟨fun _ => by bv_omega, fun _ => rfl⟩

/-! ## Format FRAME40 (R61) -/

/-- The fields of a frame word (R61), and its four unassigned bits (R67). -/
structure FrameFields where
  /-- W[39:32], letter a -/
  rc : Byte
  /-- W[31], letter b -/
  batt : Bit
  /-- W[30], letter u -/
  unk1 : Bit
  /-- W[29:28], letter c, zero-based -/
  chSel : BitVec 2
  /-- W[27:16], letter t, two's complement -/
  temp : BitVec 12
  /-- W[15:12], letter k -/
  unk2 : BitVec 4
  /-- W[11:4], letter h -/
  hum : Byte
  /-- W[3:0], not a field -/
  low : BitVec 4
  deriving DecidableEq, Repr

/-- W = b0 : b1 : b2 : b3 : b4 (R61). -/
def frameWord (b0 b1 b2 b3 b4 : Byte) : BitVec 40 :=
  b0 ++ b1 ++ b2 ++ b3 ++ b4

/-- The layout table of R61, read field by field from the word. -/
def decodeFrame (w : BitVec 40) : FrameFields where
  rc := w.extractLsb' 32 8
  batt := w.extractLsb' 31 1
  unk1 := w.extractLsb' 30 1
  chSel := w.extractLsb' 28 2
  temp := w.extractLsb' 16 12
  unk2 := w.extractLsb' 12 4
  hum := w.extractLsb' 4 8
  low := w.extractLsb' 0 4

/-- The frame word of given fields: the pattern of R61, W[39] first. -/
def encodeFrame (f : FrameFields) : BitVec 40 :=
  f.rc ++ f.batt ++ f.unk1 ++ f.chSel ++ f.temp ++ f.unk2 ++ f.hum ++ f.low

/-! ## The opcode table's data (R62, R64) -/

/-- The formats of R64. -/
inductive OpFormat where
  | req
  | buffer
  | frame40
  | record
  deriving DecidableEq, Repr

/-- The format of each operation (R64). -/
def Instr.format (i : Instr) : OpFormat :=
  match i with
  | .decode => .req
  | .validate | .chkLen | .chkPreamble | .chkNonzero | .chkMask | .chkRepeat => .buffer
  | .extTemp | .extHum | .extRc | .extCh | .extBatt | .extUnk1 | .extUnk2 => .frame40
  | .buildRecord => .record

/-- The places in the fixed sequence of a DECODE (`fields.stage` of the table, R64). -/
inductive OpStage where
  /-- the request itself -/
  | request
  /-- 1: runs first in every DECODE -/
  | validation
  /-- 1a: before any byte read -/
  | lengthGuard
  /-- 1b: the byte checks -/
  | byteCheck
  /-- 2: only when `valid` = 1 -/
  | extraction
  /-- 3: only when `valid` = 1 -/
  | record
  deriving DecidableEq, Repr

/-- The place of each operation in the sequence (R64, R140). -/
def Instr.stage (i : Instr) : OpStage :=
  match i with
  | .decode => .request
  | .validate => .validation
  | .chkLen => .lengthGuard
  | .chkPreamble | .chkNonzero | .chkMask | .chkRepeat => .byteCheck
  | .extTemp | .extHum | .extRc | .extCh | .extBatt | .extUnk1 | .extUnk2 => .extraction
  | .buildRecord => .record

/-- The buffer addresses (row, byte) each operation reads (R51; the byte operands of R82 to R85 and R101 to R108). -/
def Instr.reads (i : Instr) : List (Nat × Nat) :=
  match i with
  | .decode => [(0, 0), (1, 0), (1, 1), (1, 2), (1, 3), (1, 4), (12, 4)]
  | .validate => [(0, 0), (1, 3), (1, 4), (12, 4)]
  | .chkLen => []
  | .chkPreamble => [(0, 0)]
  | .chkNonzero => [(1, 4)]
  | .chkMask => [(1, 3)]
  | .chkRepeat => [(1, 4), (12, 4)]
  | .extTemp => [(1, 1), (1, 2)]
  | .extHum => [(1, 3), (1, 4)]
  | .extRc => [(1, 0)]
  | .extCh => [(1, 1)]
  | .extBatt => [(1, 1)]
  | .extUnk1 => [(1, 1)]
  | .extUnk2 => [(1, 3)]
  | .buildRecord => []

/-- The bits of W a field extraction takes its field from (`read_mask` of the table, R61); no bit for an operation
of another format. -/
def Instr.readMask (i : Instr) : BitVec 40 :=
  match i with
  | .extTemp => 0x000FFF0000#40
  | .extHum => 0x0000000FF0#40
  | .extRc => 0xFF00000000#40
  | .extCh => 0x0030000000#40
  | .extBatt => 0x0080000000#40
  | .extUnk1 => 0x0040000000#40
  | .extUnk2 => 0x000000F000#40
  | .decode | .validate | .chkLen | .chkPreamble | .chkNonzero | .chkMask | .chkRepeat | .buildRecord => 0#40

/-- The seven field extractions, in the order R140 runs them. -/
def extractions : List Instr :=
  [.extTemp, .extHum, .extRc, .extCh, .extBatt, .extUnk1, .extUnk2]

end Sys2Proof
end

