-- ==== Sys2Proof/Machine/State.lean ====
section
/-! DEFINITION. The state of the block and its ports as plain data, the reasons a step stops, and the state after reset. -/

namespace Sys2Proof.Machine

open Sys2Proof

/-- The control phase (R21). -/
inductive Phase where
  /-- no transaction in flight -/
  | idle
  /-- between a request and its completion -/
  | busy
  deriving DecidableEq, Repr

/-- The contents of a byte-addressed memory: (address, byte) pairs with strictly rising addresses and no byte equal
to what an unlisted address reads as. -/
abbrev Memory := List Host.Cell

/-- The input BitBuffer as it stands at the ports (R26, R40). -/
structure BitBuffer where
  /-- `num_rows` -/
  numRows : Nat
  /-- `row_bits[r]`, as (row, bit length) pairs with rising rows; an unlisted row has bit length 0 (R70) -/
  rowBits : List (Nat × Nat)
  /-- the bytes the read port gives, by the key of their (row, byte) address -/
  bytes : Memory
  deriving DecidableEq, Repr

/-- The `rec_*` output ports (R27). -/
structure RecPorts where
  time : TS
  rc : Byte
  channel : BitVec 3
  battery : Bit
  temp : BitVec 12
  humidity : Byte
  unknown1 : Bit
  unknown2 : BitVec 4
  deriving DecidableEq, Repr

/-- The SensorRecord, in the schema's order (R120, D15). -/
structure Record where
  time : TS
  model : String
  rc : Byte
  channel : BitVec 3
  battery : Bit
  temperature : BitVec 12
  humidity : Byte
  unknown1 : Bit
  unknown2 : BitVec 4
  deriving DecidableEq, Repr

/-- The transaction-local signals of R29, and the local `rec` of R140. -/
structure Signals where
  lenOk : Bool
  preOk : Bool
  nzOk : Bool
  maskOk : Bool
  repOk : Bool
  valid : Bool
  b0 : Byte
  b1 : Byte
  b2 : Byte
  b3 : Byte
  b4 : Byte
  t16 : BitVec 16
  temp : BitVec 12
  hum : Byte
  rc : Byte
  ch : BitVec 3
  batt : Bit
  unk1 : Bit
  unk2 : BitVec 4
  record : Record
  deriving DecidableEq, Repr

/-- The parameters of R9 a build fixes. No step changes them. -/
structure Build where
  /-- `LEN_GUARD_SCOPE` -/
  scope : Config.LenGuardScope
  /-- `MAX_ROWS` -/
  maxRows : Nat
  /-- `MAX_ROW_BYTES` -/
  maxRowBytes : Nat
  deriving DecidableEq, Repr

/-- One host action: a line of the host script (R70). -/
inductive HostLine where
  /-- `ROWS n` -/
  | rows (n : Nat)
  /-- `ROW r bits=N: h0 h1 ...` -/
  | row (r bits : Nat) (bytes : List Byte)
  /-- present another timestamp without a request; not a line of R70 (log 2) -/
  | stamp (t : TS)
  /-- `REQ ts=T` -/
  | request (t : TS)
  /-- `WAIT`: hold everything stable -/
  | wait
  /-- `RESET` -/
  | reset
  deriving DecidableEq, Repr

/-- The whole state: the control phase, the ports, the transaction's signals, and the model's own fields. -/
structure State where
  /-- R21 -/
  phase : Phase
  /-- input port `req` (R26), as the host last drove it -/
  req : Bit
  /-- input port `rst` (R26), as the host last drove it -/
  rst : Bit
  /-- input port `ts` (R26) -/
  ts : TS
  /-- input ports `num_rows`, `row_bits[r]` and the buffer read port (R26) -/
  buffer : BitBuffer
  /-- output port `done` (R27) -/
  done : Bit
  /-- output port `ret` (R27, R28) -/
  ret : Bit
  /-- output port `emit` (R27) -/
  emit : Bit
  /-- output ports `rec_*` (R27) -/
  out : RecPorts
  /-- transaction-local signals (R29) -/
  sig : Signals
  /-- the build's parameters (R9, log 6, log 7) -/
  build : Build
  /-- the host's pending actions (R70, log 1) -/
  script : List HostLine
  /-- the records handed to the sink, oldest first (R128, log 14) -/
  sink : List Record
  /-- which free output values come next (log 11) -/
  freeCtr : Nat
  deriving DecidableEq, Repr

/-- Why a run stops with a fault. The block itself raises none (R150). -/
inductive Fault where
  /-- A field extraction run on its own needs a byte that the frame row does not have: `BufRead` is defined only for
  addresses in bounds (R13, R43). Raised by the EXT operations alone; no step of the machine meets it. Safe. -/
  | bufReadOutOfBounds (row byte : Nat)
  deriving DecidableEq, Repr

/-- Why a run is refused: the spec gives it no meaning (R157). -/
inductive Refusal where
  /-- An operation that has no meaning yet. No arm raises it. Safe. -/
  | notModelled (mnemonic : String)
  /-- `req` = 1 while BUSY breaks a host duty (R175). Raised by DECODE. Safe. -/
  | requestWhileBusy
  /-- The buffer or `ts` changed while BUSY, which breaks a host duty (R174). Raised by the step. Safe. -/
  | inputChangedWhileBusy
  /-- The host's line cannot be presented at the ports (R41, log 25). Raised by the step. Safe. -/
  | notPresentable
  deriving DecidableEq, Repr

/-- The all-zero record with the model tag: what the local `rec` holds when no record is being built (log 13). -/
def Record.cleared : Record where
  time := 0
  model := Config.modelTag
  rc := 0#8
  channel := 0#3
  battery := 0#1
  temperature := 0#12
  humidity := 0#8
  unknown1 := 0#1
  unknown2 := 0#4

/-- The signals outside a transaction (log 13): they exist only within one (R29). -/
def Signals.cleared : Signals where
  lenOk := false
  preOk := false
  nzOk := false
  maskOk := false
  repOk := false
  valid := false
  b0 := 0#8
  b1 := 0#8
  b2 := 0#8
  b3 := 0#8
  b4 := 0#8
  t16 := 0#16
  temp := 0#12
  hum := 0#8
  rc := 0#8
  ch := 0#3
  batt := 0#1
  unk1 := 0#1
  unk2 := 0#4
  record := Record.cleared

/-- The `rec_*` ports at reset: R31 leaves them unspecified. DESIGN CHOICE (log 12): zero. -/
def RecPorts.zero : RecPorts where
  time := 0
  rc := 0#8
  channel := 0#3
  battery := 0#1
  temp := 0#12
  humidity := 0#8
  unknown1 := 0#1
  unknown2 := 0#4

/-- No buffer presented: no rows, no row lengths, no bytes listed (log 10). -/
def BitBuffer.empty : BitBuffer where
  numRows := 0
  rowBits := []
  bytes := []

/-- The parameters of this build: the guard's scope as the spec decides it, the sizes left open. -/
def Build.default : Build where
  scope := Config.lenGuardScope
  maxRows := Config.maxRows
  maxRowBytes := Config.maxRowBytes

/-- Right after reset (R31, R170, R171): IDLE, `done` = `emit` = `ret` = 0; nothing presented by the host yet (log 10). -/
def State.reset : State where
  phase := .idle
  req := 0#1
  rst := 0#1
  ts := 0
  buffer := BitBuffer.empty
  done := 0#1
  ret := 0#1
  emit := 0#1
  out := RecPorts.zero
  sig := Signals.cleared
  build := Build.default
  script := []
  sink := []
  freeCtr := 0

/-- Replace the transaction's signals by a function of them. -/
def State.onSig (s : State) (f : Signals → Signals) : State :=
  { s with sig := f s.sig }

end Sys2Proof.Machine
end

