-- ==== Sys2Proof/Machine/Operands.lean ====
section
/-! DEFINITION. The operand forms: the fields cut from the frame bytes by the formulas of 41_extractor.md, and the
record assembled from them (42_record_builder.md). Each is total (R100, R152). -/

namespace Sys2Proof.Machine

open Sys2Proof

/-- The 16-bit intermediate of EXT_TEMP: (b1 << 12) | (b2 << 4), kept to 16 bits (R101, C1). -/
def tempWord (b1 b2 : Byte) : BitVec 16 :=
  (b1.setWidth 16 <<< 12) ||| (b2.setWidth 16 <<< 4)

/-- The temperature in tenths of a degree: `t16` read as signed and shifted right by 4 arithmetically, which fits 12
signed bits (R101). -/
def tempField (t16 : BitVec 16) : BitVec 12 :=
  BitVec.ofInt 12 (t16.toInt >>> (4 : Nat))

/-- The humidity: (b3 << 4) | (b4 >> 4), kept to 8 bits (R103). -/
def humField (b3 b4 : Byte) : Byte :=
  ((b3.setWidth 16 <<< 4) ||| (b4.setWidth 16 >>> 4)).setWidth 8

/-- The address is byte 0 (R104). -/
def rcField (b0 : Byte) : Byte := b0

/-- The channel, one-based: ((b1 & 0x30) >> 4) + 1 in 3 bits (R105, C2). -/
def chField (b1 : Byte) : BitVec 3 :=
  ((b1 &&& Config.chMask) >>> 4).setWidth 3 + 1#3

/-- The battery flag: 1 (OK) when b1 & 0x80 is non-zero (R106, C2). -/
def battField (b1 : Byte) : Bit :=
  if b1 &&& Config.battMask ≠ 0#8 then 1#1 else 0#1

/-- unknown1: (b1 & 0x40) >> 6 (R107, C2). -/
def unk1Field (b1 : Byte) : Bit :=
  ((b1 &&& Config.unk1Mask) >>> 6).setWidth 1

/-- unknown2: (b3 & 0xF0) >> 4 (R108). -/
def unk2Field (b3 : Byte) : BitVec 4 :=
  ((b3 &&& Config.unk2Mask) >>> 4).setWidth 4

/-- The record assembled from the timestamp, the model tag and the extracted fields (R120). -/
def assemble (ts : TS) (g : Signals) : Record where
  time := ts
  model := Config.modelTag
  rc := g.rc
  channel := g.ch
  battery := g.batt
  temperature := g.temp
  humidity := g.hum
  unknown1 := g.unk1
  unknown2 := g.unk2

/-- A record on the `rec_*` ports; the model tag is a constant and has no port (R27). -/
def Record.ports (r : Record) : RecPorts where
  time := r.time
  rc := r.rc
  channel := r.channel
  battery := r.battery
  temp := r.temperature
  humidity := r.humidity
  unknown1 := r.unknown1
  unknown2 := r.unknown2

end Sys2Proof.Machine
end

