-- ==== Sys2Proof/Machine/Ops.lean ====
section
/-! DEFINITION. The named operations: memory, the BitBuffer, the host's lines at the ports, the free outputs, reset,
handoff and return. The block has no exception, so there is no exception entry and no return from one (R150, R155, R156). -/

namespace Sys2Proof.Machine

open Sys2Proof

/-! ## Sparse lists: canonical (key, value) lists with one default value -/

/-- The value at a key; the default where none is listed. -/
def sparseRead {β : Type} (d : β) : List (Nat × β) → Nat → β
  | [], _ => d
  | (a, v) :: rest, k => if k = a then v else sparseRead d rest k

/-- Drop the entry of a key, if there is one. -/
def sparseErase {β : Type} : List (Nat × β) → Nat → List (Nat × β)
  | [], _ => []
  | (a, v) :: rest, k => if k = a then rest else (a, v) :: sparseErase rest k

/-- Put an entry at its place, over the one that stands there. -/
def sparseInsert {β : Type} : List (Nat × β) → Nat → β → List (Nat × β)
  | [], k, v => [(k, v)]
  | (a, w) :: rest, k, v =>
    if k < a then (k, v) :: (a, w) :: rest
    else if k = a then (k, v) :: rest
    else (a, w) :: sparseInsert rest k v

/-- Write a value at a key; writing the default removes the entry. -/
def sparseWrite {β : Type} [DecidableEq β] (d : β) (m : List (Nat × β)) (k : Nat) (v : β) : List (Nat × β) :=
  if v = d then sparseErase m k else sparseInsert m k v

/-- The canonical form: keys strictly rising, no entry equal to the default. -/
abbrev sparseWf {β : Type} (d : β) (m : List (Nat × β)) : Prop :=
  m.Pairwise (fun x y => x.1 < y.1) ∧ ∀ x ∈ m, x.2 ≠ d

/-! ## The BitBuffer (R40 to R48) -/

/-- What an unlisted byte reads as. DESIGN CHOICE (log 9): zero. -/
def unlistedByte : Byte := 0#8

/-- The memory key of the byte slot (row, byte): a one-to-one pairing (log 8). -/
def slotKey (r b : Nat) : Nat := Nat.pair r b

/-- The byte the memory holds at (row, byte), whether or not it is in bounds. -/
def Memory.read (m : Memory) (r b : Nat) : Byte := sparseRead unlistedByte m (slotKey r b)

/-- Put a byte at (row, byte). -/
def Memory.write (m : Memory) (r b : Nat) (v : Byte) : Memory := sparseWrite unlistedByte m (slotKey r b) v

/-- Put the bytes of a row from byte `b` on. -/
def Memory.writeRow (m : Memory) (r b : Nat) : List Byte → Memory
  | [] => m
  | v :: rest => Memory.writeRow (m.write r b v) r (b + 1) rest

/-- The memory's canonical form. -/
abbrev Memory.wf (m : Memory) : Prop := sparseWf unlistedByte m

/-- `RowBits(r)` (R13); a row not given by the host has bit length 0 (R70). -/
def BitBuffer.bitsOf (buf : BitBuffer) (r : Nat) : Nat := sparseRead 0 buf.rowBits r

/-- `RowLen(r)`: the bit length in whole bytes, rounded up (R42). -/
def BitBuffer.rowLen (buf : BitBuffer) (r : Nat) : Nat := (buf.bitsOf r + 7) / 8

/-- The address (r, b) is in bounds (R40). -/
abbrev BitBuffer.inBounds (buf : BitBuffer) (r b : Nat) : Prop := r < buf.numRows ∧ b < buf.rowLen r

/-- `BufRead(r, b)` (R13, R45): the byte as stored, padding bits unmasked (R48); nothing outside the bounds. -/
def BitBuffer.bufRead (buf : BitBuffer) (r b : Nat) : Option Byte :=
  if buf.inBounds r b then some (buf.bytes.read r b) else none

/-- The buffer is the same to the block: `num_rows`, every `row_bits[r]` and every byte of the buffer, those in bounds
(R40, R143, R174). A byte slot out of bounds is no byte of the buffer (R43, log 23). -/
abbrev BitBuffer.sameAs (buf old : BitBuffer) : Prop :=
  buf.numRows = old.numRows ∧ buf.rowBits = old.rowBits ∧
    ∀ r, r < old.numRows → ∀ b, b < old.rowLen r → buf.bytes.read r b = old.bytes.read r b

/-- The lists of the buffer are in canonical form. -/
abbrev BitBuffer.wf (buf : BitBuffer) : Prop := Memory.wf buf.bytes ∧ sparseWf 0 buf.rowBits

/-- The buffer fits the ports of the build (R41). -/
abbrev BitBuffer.fits (buf : BitBuffer) (p : Build) : Prop :=
  buf.numRows ≤ p.maxRows ∧ ∀ x ∈ buf.rowBits, x.1 < p.maxRows ∧ x.2 ≤ 8 * p.maxRowBytes

/-- The same state with other bytes behind the buffer's read port; the row count and the row lengths stay. -/
def State.withBytes (s : State) (m : Memory) : State :=
  { s with buffer := { s.buffer with bytes := m } }

/-- The build's sizes are at least the minimum (R9). -/
abbrev Build.wf (p : Build) : Prop := Config.minRows ≤ p.maxRows ∧ Config.minRowBytes ≤ p.maxRowBytes

/-! ## Sequencing -/

/-- Go on from a next state; a fault or a refusal stands. -/
def andThen (o : Host.Outcome State Fault Refusal) (f : State → Host.Outcome State Fault Refusal) :
    Host.Outcome State Fault Refusal :=
  match o with
  | .next s => f s
  | .fault r => .fault r
  | .refused r => .refused r

/-- Change the state of a next outcome; a fault or a refusal stands. -/
def mapNext (f : State → State) (o : Host.Outcome State Fault Refusal) : Host.Outcome State Fault Refusal :=
  andThen o (fun s => .next (f s))

/-- Read byte `k` of the frame row for a field extraction (R14, R100). Out of bounds, `BufRead` has no value (R13):
the extraction stops. -/
def withFrameByte (s : State) (k : Nat) (f : Byte → Host.Outcome State Fault Refusal) :
    Host.Outcome State Fault Refusal :=
  match s.buffer.bufRead Config.frameRow k with
  | some v => f v
  | none => .fault (.bufReadOutOfBounds Config.frameRow k)

/-! ## The host's lines at the ports (R26, R70) -/

/-- A line drives the ports; nothing where the ports cannot take it (R41, log 25). -/
def State.present (s : State) (l : HostLine) : Option State :=
  match l with
  | .rows n =>
    if n ≤ s.build.maxRows then some { s with buffer := { s.buffer with numRows := n } } else none
  | .row r bits bytes =>
    if r < s.build.maxRows ∧ bits ≤ 8 * s.build.maxRowBytes ∧ bytes.length = (bits + 7) / 8 then
      some { s with buffer := { s.buffer with
        rowBits := sparseWrite 0 s.buffer.rowBits r bits
        bytes := s.buffer.bytes.writeRow r 0 bytes } }
    else none
  | .stamp t => some { s with ts := t }
  | .request t => some { s with req := 1#1, ts := t }
  | .wait => some s
  | .reset => some { s with rst := 1#1 }

/-- The host's action of this step: `req` and `rst` are 0 unless this line drives them (log 3), and the line leaves the
script. With an empty script the host holds everything stable, as `WAIT` does (log 1). -/
def State.drive (s : State) : Option State :=
  match s.script with
  | [] => some { s with req := 0#1, rst := 0#1 }
  | l :: rest => State.present { s with req := 0#1, rst := 0#1, script := rest } l

/-- The pseudo-line `FILL r0..r1 bits=N: ...` (R70): one `ROW` line for each row from r0 to r1. -/
def fillLines (r0 r1 bits : Nat) (bytes : List Byte) : List HostLine :=
  (List.range' r0 (r1 + 1 - r0)).map (fun r => .row r bits bytes)

/-- The pseudo-line `DECODE ts=T` (R70): a request, then the wait for its completion. -/
def decodeLines (t : TS) : List HostLine := [.request t, .wait]

/-! ## Outputs, request, handoff, return, reset -/

/-- The free values of the `rec_*` ports (U1). -/
def freePorts (n : Nat) : RecPorts where
  time := Config.freeTime n
  rc := Config.freeRc n
  channel := Config.freeChannel n
  battery := Config.freeBattery n
  temp := Config.freeTemp n
  humidity := Config.freeHumidity n
  unknown1 := Config.freeUnknown1 n
  unknown2 := Config.freeUnknown2 n

/-- The outputs of a step with no completion: `done` and `emit` are 0 (D17); `ret` and `rec_*` have no meaning (R141,
U1), so they are free values. -/
def State.silent (s : State) : State :=
  { s with
    done := 0#1, emit := 0#1
    ret := Config.freeRet s.freeCtr
    out := freePorts s.freeCtr
    freeCtr := s.freeCtr + 1 }

/-- A request is accepted: IDLE to BUSY, no output (R140, R146). The transaction starts with no signal computed. -/
def State.accept (s : State) : State :=
  State.silent { s with phase := .busy, sig := Signals.cleared }

/-- Reset (R170, R31): IDLE, `done` = `emit` = `ret` = 0, a transaction in flight is abandoned, the buffer is not
touched; the `rec_*` outputs are unspecified. -/
def State.applyReset (s : State) : State :=
  { s with
    phase := .idle
    done := 0#1, emit := 0#1, ret := 0#1
    out := freePorts s.freeCtr
    freeCtr := s.freeCtr + 1
    sig := Signals.cleared }

/-- `Emit(rec)` (R128): the one handoff, `emit` = 1 with the record on the `rec_*` ports. -/
def State.handoff (s : State) (r : Record) : State :=
  { s with emit := 1#1, out := r.ports, sink := s.sink ++ [r] }

/-- `Return(k)` (R13, R140, R141): the completion event with return value k; the signals end with the transaction. -/
def State.returnWith (s : State) (k : Bit) : State :=
  { s with done := 1#1, ret := k, phase := .idle, sig := Signals.cleared }

/-- `Reject` (R13): `Return(0)` with no `Emit`; the `rec_*` ports have no meaning (U1). -/
def State.reject (s : State) : State :=
  State.returnWith
    { s with emit := 0#1, out := freePorts s.freeCtr, freeCtr := s.freeCtr + 1 } 0#1

end Sys2Proof.Machine
end

