-- ==== Sys2Proof/Machine/Extractor.lean ====
section
/-! DEFINITION. The Field Extractor: the seven EXT operations (41_extractor.md). Each reads its own bytes of the frame
row into the signals `b0`..`b4` (R14, R51, R100) and sets its field. -/

namespace Sys2Proof.Machine

open Sys2Proof

/-- EXT_TEMP (R101): `t16` and `temp` from b1 and b2. -/
def execExtTemp (s : State) : Host.Outcome State Fault Refusal :=
  withFrameByte s 1 fun b1 =>
  withFrameByte s 2 fun b2 =>
  .next (s.onSig (fun g => { g with b1 := b1, b2 := b2, t16 := tempWord b1 b2, temp := tempField (tempWord b1 b2) }))

/-- EXT_HUM (R103): `hum` from b3 and b4. -/
def execExtHum (s : State) : Host.Outcome State Fault Refusal :=
  withFrameByte s 3 fun b3 =>
  withFrameByte s 4 fun b4 =>
  .next (s.onSig (fun g => { g with b3 := b3, b4 := b4, hum := humField b3 b4 }))

/-- EXT_RC (R104): `rc` from b0. -/
def execExtRc (s : State) : Host.Outcome State Fault Refusal :=
  withFrameByte s 0 fun b0 =>
  .next (s.onSig (fun g => { g with b0 := b0, rc := rcField b0 }))

/-- EXT_CH (R105): `ch` from b1. -/
def execExtCh (s : State) : Host.Outcome State Fault Refusal :=
  withFrameByte s 1 fun b1 =>
  .next (s.onSig (fun g => { g with b1 := b1, ch := chField b1 }))

/-- EXT_BATT (R106): `batt` from b1. -/
def execExtBatt (s : State) : Host.Outcome State Fault Refusal :=
  withFrameByte s 1 fun b1 =>
  .next (s.onSig (fun g => { g with b1 := b1, batt := battField b1 }))

/-- EXT_UNK1 (R107): `unk1` from b1. -/
def execExtUnk1 (s : State) : Host.Outcome State Fault Refusal :=
  withFrameByte s 1 fun b1 =>
  .next (s.onSig (fun g => { g with b1 := b1, unk1 := unk1Field b1 }))

/-- EXT_UNK2 (R108): `unk2` from b3. -/
def execExtUnk2 (s : State) : Host.Outcome State Fault Refusal :=
  withFrameByte s 3 fun b3 =>
  .next (s.onSig (fun g => { g with b3 := b3, unk2 := unk2Field b3 }))

end Sys2Proof.Machine
end

