-- ==== Sys2Proof/Machine/RecordBuilder.lean ====
section
/-! DEFINITION. The Record Builder: BUILD_RECORD (R120) and `Render` (R122 to R127). -/

namespace Sys2Proof.Machine

open Sys2Proof

/-- BUILD_RECORD (R120): the record from `ts` and the extracted fields, as the local `rec` and on the `rec_*` ports,
which are its format (R27, log 19). The handoff itself is DECODE's `Emit` (R128, R140). -/
def execBuildRecord (s : State) : Host.Outcome State Fault Refusal :=
  .next { s with
    sig := { s.sig with record := assemble s.ts s.sig }
    out := (assemble s.ts s.sig).ports }

/-- `dec(n)`: the decimal numeral with no leading zeros (R123). -/
def decText (n : Nat) : String := String.ofList (Nat.toDigits 10 n)

/-- `Render(temperature_C)` of the integer t, tenths of a degree: exactly one fractional digit (R123). -/
def renderTenths (t : Int) : String :=
  (if t < 0 then "-" else "") ++ decText (t.natAbs / 10) ++ "." ++ decText (t.natAbs % 10)

/-- `Render(battery)` (R125). -/
def renderBattery (b : Bit) : String := if b = 1#1 then "OK" else "LOW"

/-- The texts of a record, in the schema's order (R120). -/
structure RenderedRecord where
  time : String
  model : String
  rc : String
  channel : String
  battery : String
  temperatureC : String
  humidity : String
  /-- the percent-unit annotation that goes with `humidity`; its text and place are open (R124) -/
  humidityUnit : String
  unknown1 : String
  unknown2 : String
  deriving DecidableEq, Repr

/-- `Render` of a record (R122 to R127). -/
def Record.render (r : Record) : RenderedRecord where
  time := Config.timeText r.time
  model := r.model
  rc := decText r.rc.toNat
  channel := decText r.channel.toNat
  battery := renderBattery r.battery
  temperatureC := renderTenths r.temperature.toInt
  humidity := decText r.humidity.toNat
  humidityUnit := Config.humUnitAnnotation
  unknown1 := decText r.unknown1.toNat
  unknown2 := decText r.unknown2.toNat

end Sys2Proof.Machine
end

