-- ==== Sys2Proof/Machine/Flags.lean ====
section
/-! DEFINITION. The one-bit conditions: the five checks of 40_validator.md and their conjunction, which decides the
return flag `ret` (R28). -/

namespace Sys2Proof.Machine

open Sys2Proof

/-- CHK_LEN under a scope (R81). Reads no byte. -/
def lengthGuard (scope : Config.LenGuardScope) (buf : BitBuffer) : Bool :=
  decide (Config.minRows ≤ buf.numRows) &&
  match scope with
  | .first13 => (List.range Config.minRows).all (fun r => decide (Config.minRowBytes ≤ buf.rowLen r))
  | .accessed =>
    decide (1 ≤ buf.rowLen Config.preambleRow) &&
    decide (Config.minRowBytes ≤ buf.rowLen Config.frameRow) &&
    decide (Config.minRowBytes ≤ buf.rowLen Config.repeatRow)
  | .allRows => (List.range buf.numRows).all (fun r => decide (Config.minRowBytes ≤ buf.rowLen r))

/-- A bounds-aware condition on one byte: a byte that is not there fails it (R80, R151). -/
def byteCheck (buf : BitBuffer) (r b : Nat) (p : Byte → Bool) : Bool :=
  match buf.bufRead r b with
  | some v => p v
  | none => false

/-- CHK_PREAMBLE (R82). -/
def preambleZero (buf : BitBuffer) : Bool :=
  byteCheck buf Config.preambleRow 0 (fun v => v == 0#8)

/-- CHK_NONZERO (R83). -/
def byte4Nonzero (buf : BitBuffer) : Bool :=
  byteCheck buf Config.frameRow 4 (fun v => v != 0#8)

/-- CHK_MASK (R84). -/
def maskBitsSet (buf : BitBuffer) : Bool :=
  byteCheck buf Config.frameRow 3 (fun v => (v &&& Config.valMask) != 0#8)

/-- CHK_REPEAT (R85). -/
def byte4Repeats (buf : BitBuffer) : Bool :=
  byteCheck buf Config.frameRow 4 (fun v => byteCheck buf Config.repeatRow 4 (fun w => v == w))

end Sys2Proof.Machine
end

