-- ==== Sys2Proof/Machine/Validator.lean ====
section
/-! DEFINITION. The Frame Validator: VALIDATE and its five checks (40_validator.md). None writes a flag or raises an
exception; each sets a transaction-local signal. -/

namespace Sys2Proof.Machine

open Sys2Proof

/-- CHK_LEN (R81): `len_ok`, under the build's scope. -/
def execChkLen (s : State) : Host.Outcome State Fault Refusal :=
  .next (s.onSig (fun g => { g with lenOk := lengthGuard s.build.scope s.buffer }))

/-- CHK_PREAMBLE (R82): `pre_ok`. -/
def execChkPreamble (s : State) : Host.Outcome State Fault Refusal :=
  .next (s.onSig (fun g => { g with preOk := preambleZero s.buffer }))

/-- CHK_NONZERO (R83): `nz_ok`. -/
def execChkNonzero (s : State) : Host.Outcome State Fault Refusal :=
  .next (s.onSig (fun g => { g with nzOk := byte4Nonzero s.buffer }))

/-- CHK_MASK (R84): `mask_ok`. -/
def execChkMask (s : State) : Host.Outcome State Fault Refusal :=
  .next (s.onSig (fun g => { g with maskOk := maskBitsSet s.buffer }))

/-- CHK_REPEAT (R85): `rep_ok`. -/
def execChkRepeat (s : State) : Host.Outcome State Fault Refusal :=
  .next (s.onSig (fun g => { g with repOk := byte4Repeats s.buffer }))

/-- VALIDATE (R80): the length guard first; where it fails, `valid` = 0 and no byte check is run; otherwise the four
byte checks and their conjunction. -/
def execValidate (s : State) : Host.Outcome State Fault Refusal :=
  andThen (execChkLen s) fun s1 =>
  if s1.sig.lenOk then
    andThen (execChkPreamble s1) fun s2 =>
    andThen (execChkNonzero s2) fun s3 =>
    andThen (execChkMask s3) fun s4 =>
    andThen (execChkRepeat s4) fun s5 =>
    .next (s5.onSig (fun g => { g with valid := g.preOk && g.nzOk && g.maskOk && g.repOk }))
  else .next (s1.onSig (fun g => { g with valid := false }))

end Sys2Proof.Machine
end

