-- ==== Sys2Proof/Machine/Transaction.lean ====
section
/-! DEFINITION. The DECODE transaction (43_decode.md), and the outcome function `Decode(buf, ts)` of R143 written
from the layout tables, apart from the stages. -/

namespace Sys2Proof.Machine

open Sys2Proof

/-- The seven extractions, in the order of R140. -/
def extractFields (s : State) : Host.Outcome State Fault Refusal :=
  andThen (execExtTemp s) fun s1 =>
  andThen (execExtHum s1) fun s2 =>
  andThen (execExtRc s2) fun s3 =>
  andThen (execExtCh s3) fun s4 =>
  andThen (execExtBatt s4) fun s5 =>
  andThen (execExtUnk1 s5) fun s6 =>
  execExtUnk2 s6

/-- Extraction, record, handoff and `Return(1)`: what follows a passed validation (R140). -/
def claim (s : State) : Host.Outcome State Fault Refusal :=
  andThen (extractFields s) fun s1 =>
  andThen (execBuildRecord s1) fun s2 =>
  .next ((s2.handoff s2.sig.record).returnWith 1#1)

/-- The completion of a transaction (R140, R141). -/
def complete (s : State) : Host.Outcome State Fault Refusal :=
  andThen (execValidate s) fun s1 =>
  if s1.sig.valid then claim s1 else .next s1.reject

/-- DECODE (R140): on `req` = 1 while IDLE the request is accepted; while BUSY, with no further request, the
transaction completes; a request while BUSY is refused (R175); IDLE with no request stays IDLE (R60, R146). -/
def execDecode (s : State) : Host.Outcome State Fault Refusal :=
  match s.phase with
  | .idle => if s.req = 1#1 then .next s.accept else .next s.silent
  | .busy => if s.req = 1#1 then .refused .requestWhileBusy else complete s

/-- The byte at (r, b) of the buffer, for the function of R143 (in bounds wherever it is used). -/
def BitBuffer.byteAt (buf : BitBuffer) (r b : Nat) : Byte := buf.bytes.read r b

/-- The frame word W of the buffer's row 1 (R61). -/
def BitBuffer.frame (buf : BitBuffer) : BitVec 40 :=
  frameWord (buf.byteAt 1 0) (buf.byteAt 1 1) (buf.byteAt 1 2) (buf.byteAt 1 3) (buf.byteAt 1 4)

/-- The record of a frame word: the fields of R61 with the operand assembly of R63. -/
def frameRecord (t : TS) (w : BitVec 40) : Record where
  time := t
  model := "Mebus/433"
  rc := (decodeFrame w).rc
  channel := (decodeFrame w).chSel.setWidth 3 + 1#3
  battery := (decodeFrame w).batt
  temperature := (decodeFrame w).temp
  humidity := (decodeFrame w).hum
  unknown1 := (decodeFrame w).unk1
  unknown2 := (decodeFrame w).unk2

/-- VALIDATE(buf) as the table of R62: the length guard and four conditions on bytes. -/
def accepts (scope : Config.LenGuardScope) (buf : BitBuffer) : Bool :=
  lengthGuard scope buf &&
  decide (buf.byteAt 0 0 = 0#8) &&
  decide (buf.byteAt 1 4 ≠ 0#8) &&
  decide (buf.byteAt 1 3 &&& 0x78#8 ≠ 0#8) &&
  decide (buf.byteAt 1 4 = buf.byteAt 12 4)

/-- `Decode(buf, ts)` (R143): the claimed record, or none for `Reject`. -/
def decodeBuffer (scope : Config.LenGuardScope) (buf : BitBuffer) (t : TS) : Option Record :=
  if accepts scope buf then some (frameRecord t buf.frame) else none

/-! ## The step relation (R146) around the operations -/

/-- One step, given the meaning of the operations: the host drives the ports; reset wins (R154, R170); a request word
that selects an operation runs it; with no request, IDLE stays IDLE and BUSY completes, unless the buffer or `ts`
changed (R174). -/
def controlStep (run : Instr → State → Host.Outcome State Fault Refusal) (s : State) :
    Host.Outcome State Fault Refusal :=
  match s.drive with
  | none => .refused .notPresentable
  | some d =>
    if d.rst = 1#1 then .next d.applyReset
    else
      match decode d.req with
      | .selects i => run i d
      | .noRequest =>
        match d.phase with
        | .idle => .next d.silent
        | .busy =>
          if d.buffer.sameAs s.buffer ∧ d.ts = s.ts then run .decode d
          else .refused .inputChangedWhileBusy

/-- Put a table word on the request port of the next step: a `REQ` line for `req` = 1, with the timestamp that stands
at the port; a `WAIT` line for `req` = 0. -/
def State.requestNext (s : State) (w : Nat) : State :=
  { s with script := (if requestBit w = 1#1 then .request s.ts else .wait) :: s.script }

end Sys2Proof.Machine
end

