-- ==== Sys2Proof/Machine/Dispatch.lean ====
section
/-! DEFINITION. One arm for each operation of R64. -/

namespace Sys2Proof.Machine

open Sys2Proof

def exec (i : Instr) (s : State) : Host.Outcome State Fault Refusal :=
  match i with
  | .decode => Sys2Proof.Machine.execDecode s
  | .validate => Sys2Proof.Machine.execValidate s
  | .chkLen => Sys2Proof.Machine.execChkLen s
  | .chkPreamble => Sys2Proof.Machine.execChkPreamble s
  | .chkNonzero => Sys2Proof.Machine.execChkNonzero s
  | .chkMask => Sys2Proof.Machine.execChkMask s
  | .chkRepeat => Sys2Proof.Machine.execChkRepeat s
  | .extTemp => Sys2Proof.Machine.execExtTemp s
  | .extHum => Sys2Proof.Machine.execExtHum s
  | .extRc => Sys2Proof.Machine.execExtRc s
  | .extCh => Sys2Proof.Machine.execExtCh s
  | .extBatt => Sys2Proof.Machine.execExtBatt s
  | .extUnk1 => Sys2Proof.Machine.execExtUnk1 s
  | .extUnk2 => Sys2Proof.Machine.execExtUnk2 s
  | .buildRecord => Sys2Proof.Machine.execBuildRecord s

end Sys2Proof.Machine
end

