-- ==== Sys2Proof/Machine/Step.lean ====
section
/-! DEFINITION. One step of the machine (R146), and the placing of a request word. -/

namespace Sys2Proof.Machine

open Sys2Proof

/-- One step of the relation of R146. -/
def step (s : State) : Host.Outcome State Fault Refusal := controlStep exec s

/-- The state whose next step reads the request word `w`: there is no program to place, so the host's next action is
the request itself (R23, R60, log 24). -/
def State.withFetchWord (s : State) (_nbits w : Nat) : State := s.requestNext w

end Sys2Proof.Machine
end

