-- ==== Sys2Proof/Safety.lean ====
section
/-! DEFINITION. What holds of every state a run can be in, in the terms the statements use. -/

namespace Sys2Proof.Machine

open Sys2Proof

/-- A record that can leave the block: the constant model tag (R120) and a channel of 1 to 4 (R105). -/
abbrev Record.legal (r : Record) : Prop :=
  r.model = Config.modelTag ∧ 1 ≤ r.channel.toNat ∧ r.channel.toNat ≤ 4

/-- The state invariant. -/
structure State.Inv (s : State) : Prop where
  /-- the build's sizes are at least the minimum (R9) -/
  build_wf : s.build.wf
  /-- the buffer's lists are canonical -/
  buffer_wf : s.buffer.wf
  /-- the buffer fits the ports (R41) -/
  buffer_fits : s.buffer.fits s.build
  /-- between steps no transaction-local value is held (R20, R21, R29) -/
  sig_cleared : s.sig = Signals.cleared
  /-- a BUSY block has not completed: `done` and `emit` are 0 (R141, D17) -/
  busy_silent : s.phase = .busy → s.done = 0#1 ∧ s.emit = 0#1
  /-- in a completion `emit` = `ret` (R141) -/
  done_emit : s.done = 1#1 → s.emit = s.ret
  /-- a handoff happens only in a completion, with the last record on the ports (R128) -/
  emit_record : s.emit = 1#1 → s.done = 1#1 ∧ ∃ r, s.sink.getLast? = some r ∧ s.out = r.ports
  /-- every record handed off is legal -/
  sink_legal : ∀ r ∈ s.sink, r.legal

end Sys2Proof.Machine
end

