-- ==== Sys2Proof/Certificates/Slice0/Obligations.lean ====
section
/-! DEFINITION. The statements for the provers. -/

open Sys2Proof Sys2Proof.Machine

/-! ## Reset and the step relation -/

/-- R31: after reset the phase is IDLE and `done`, `emit` and `ret` are 0. -/
def Obligations.ResetIsIdleWithOutputsLow : Prop :=
  State.reset.phase = .idle ∧ State.reset.done = 0#1 ∧ State.reset.emit = 0#1 ∧ State.reset.ret = 0#1

/-- R170: `rst`, in IDLE or BUSY, gives IDLE with `done`, `emit` and `ret` at 0; a transaction in flight hands off
nothing; the buffer is not touched. -/
def Obligations.RstAbandonsAndReturnsToIdle : Prop :=
  ∀ (s : State) (rest : List HostLine), s.script = .reset :: rest →
    ∃ t, step s = .next t ∧ t.phase = .idle ∧ t.done = 0#1 ∧ t.emit = 0#1 ∧ t.ret = 0#1 ∧
      t.sink = s.sink ∧ t.buffer = s.buffer ∧ t.ts = s.ts ∧ t.build = s.build ∧ t.script = rest

/-- The six rows of R146's step relation as the model takes them: a request while IDLE gives BUSY with no output; IDLE
with no request stays IDLE with no output; a completion from BUSY gives IDLE with `done` and the outcome of
`Decode(buf, ts)`; a request while BUSY and a changed input while BUSY are refused; `rst` gives IDLE with no output.
The model's choice, not R146's words: which step a completion is, the first in which the host neither resets, requests
nor changes an input (log 21), that a changed byte slot out of bounds is no changed input (log 23), what wins when several
of these fall in one step (log 20), and that an empty script is a host that does nothing (log 1), so that a BUSY block with
an empty script completes. -/
def Obligations.StepFollowsTheRelation : Prop :=
  (∀ s : State, s.phase = .busy → s.script = [] → ∃ t, step s = .next t ∧ t.done = 1#1) ∧
  ∀ s d : State, s.drive = some d →
    (d.rst ≠ 1#1 → d.phase = .idle → d.req = 1#1 →
      ∃ t, step s = .next t ∧ t.phase = .busy ∧ t.done = 0#1 ∧ t.emit = 0#1 ∧ t.sink = s.sink ∧
        t.buffer = d.buffer ∧ t.ts = d.ts) ∧
    (d.rst ≠ 1#1 → d.phase = .idle → d.req ≠ 1#1 →
      ∃ t, step s = .next t ∧ t.phase = .idle ∧ t.done = 0#1 ∧ t.emit = 0#1 ∧ t.sink = s.sink ∧
        t.buffer = d.buffer ∧ t.ts = d.ts) ∧
    (d.rst ≠ 1#1 → d.phase = .busy → d.req ≠ 1#1 → d.buffer.sameAs s.buffer → d.ts = s.ts →
      ∃ t, step s = .next t ∧ t.phase = .idle ∧ t.done = 1#1 ∧
        match decodeBuffer s.build.scope s.buffer s.ts with
        | some r => t.ret = 1#1 ∧ t.emit = 1#1 ∧ t.out = r.ports ∧ t.sink = s.sink ++ [r]
        | none => t.ret = 0#1 ∧ t.emit = 0#1 ∧ t.sink = s.sink) ∧
    (d.rst ≠ 1#1 → d.phase = .busy → d.req = 1#1 → step s = .refused .requestWhileBusy) ∧
    (d.rst ≠ 1#1 → d.phase = .busy → d.req ≠ 1#1 → (¬ d.buffer.sameAs s.buffer ∨ d.ts ≠ s.ts) →
      step s = .refused .inputChangedWhileBusy) ∧
    (d.rst = 1#1 →
      ∃ t, step s = .next t ∧ t.phase = .idle ∧ t.done = 0#1 ∧ t.emit = 0#1 ∧ t.sink = s.sink ∧
        t.buffer = d.buffer)

/-- The step runs the decoded operation: with no reset, where the request word decodes to a well-formed operation, the
step is its meaning on the state whose ports the host has driven; and a BUSY block whose host neither requests nor
changes an input runs the rest of its DECODE. The second clause is the model's choice, not R146's words: the completion is
taken in that very step (log 21), and a changed byte slot out of bounds is no changed input (log 23). -/
def Obligations.StepRunsTheDecodedOperation : Prop :=
  (∀ (s d : State) (i : Instr), s.drive = some d → d.rst ≠ 1#1 → decode d.req = .selects i → i.wf = true →
    step s = exec i d) ∧
  (∀ s d : State, s.drive = some d → d.rst ≠ 1#1 → decode d.req = .noRequest → d.phase = .busy →
    d.buffer.sameAs s.buffer → d.ts = s.ts → step s = exec .decode d)

/-- R175: a request while BUSY is refused. -/
def Obligations.RequestWhileBusyIsRefused : Prop :=
  (∀ (s : State) (t : TS) (rest : List HostLine), s.phase = .busy → s.script = .request t :: rest →
    step s = .refused .requestWhileBusy) ∧
  (∀ s : State, s.phase = .busy → s.req = 1#1 → exec .decode s = .refused .requestWhileBusy)

/-- The lines of the host while BUSY. One that changes the row count, a row's length, a byte of the buffer or the
timestamp is refused; one that changes none of them is not: the block completes. The model's choice, not R174's words:
the line `stamp`, which changes `ts` alone (log 2); that a value presented again is no change and that the block completes
in that step (log 20, log 21), also under an empty script (log 1); and that a byte slot of a row at or above `num_rows` is no
byte of the buffer (log 23). -/
def Obligations.ChangedInputWhileBusyIsRefused : Prop :=
  (∀ (s : State) (n : Nat) (rest : List HostLine), s.phase = .busy → s.script = .rows n :: rest →
    n ≤ s.build.maxRows → n ≠ s.buffer.numRows → step s = .refused .inputChangedWhileBusy) ∧
  (∀ (s : State) (r bits : Nat) (bytes : List Byte) (rest : List HostLine), s.phase = .busy → s.buffer.wf →
    s.script = .row r bits bytes :: rest → r < s.build.maxRows → bits ≤ 8 * s.build.maxRowBytes →
    bytes.length = (bits + 7) / 8 →
    (bits ≠ s.buffer.bitsOf r ∨
      r < s.buffer.numRows ∧ ∃ (b : Nat) (h : b < bytes.length), bytes[b] ≠ s.buffer.bytes.read r b) →
    step s = .refused .inputChangedWhileBusy) ∧
  (∀ (s : State) (t : TS) (rest : List HostLine), s.phase = .busy → s.script = .stamp t :: rest → t ≠ s.ts →
    step s = .refused .inputChangedWhileBusy) ∧
  (∀ (s : State) (n : Nat) (rest : List HostLine), s.phase = .busy → s.script = .rows n :: rest →
    n ≤ s.build.maxRows → n = s.buffer.numRows → ∃ u, step s = .next u ∧ u.done = 1#1) ∧
  (∀ (s : State) (r bits : Nat) (bytes : List Byte) (rest : List HostLine), s.phase = .busy → s.buffer.wf →
    s.script = .row r bits bytes :: rest → r < s.build.maxRows → bits ≤ 8 * s.build.maxRowBytes →
    bytes.length = (bits + 7) / 8 → bits = s.buffer.bitsOf r →
    (s.buffer.numRows ≤ r ∨ ∀ (b : Nat) (h : b < bytes.length), bytes[b] = s.buffer.bytes.read r b) →
    ∃ u, step s = .next u ∧ u.done = 1#1) ∧
  (∀ (s : State) (t : TS) (rest : List HostLine), s.phase = .busy → s.script = .stamp t :: rest → t = s.ts →
    ∃ u, step s = .next u ∧ u.done = 1#1) ∧
  (∀ (s : State) (rest : List HostLine), s.phase = .busy → (s.script = .wait :: rest ∨ s.script = []) →
    ∃ u, step s = .next u ∧ u.done = 1#1)

/-- R174: from the request to the completion or a reset, the host holds `num_rows`, every `row_bits[r]`, every byte of the
buffer and `ts`: whatever the host drives on the ports of a BUSY block, if one of these differs from what stood there, the
run is refused. -/
def Obligations.InputsAreHeldWhileBusy : Prop :=
  ∀ s d : State, s.phase = .busy → s.drive = some d → d.rst ≠ 1#1 → d.req ≠ 1#1 →
    (d.buffer.numRows ≠ s.buffer.numRows ∨ (∃ r, d.buffer.bitsOf r ≠ s.buffer.bitsOf r) ∨
      (∃ r b, s.buffer.inBounds r b ∧ d.buffer.bufRead r b ≠ s.buffer.bufRead r b) ∨ d.ts ≠ s.ts) →
    step s = .refused .inputChangedWhileBusy

/-- Every DECODE completes, in a number of steps that does not depend on the buffer (R144): a request while IDLE followed by a
wait is done after two steps, whatever the buffer holds. The model's choice, not R144's words: that the number is two, with
the completion in the step of the wait itself (log 21), one host line a step (log 1). -/
def Obligations.EveryDecodeCompletesInTwoSteps : Prop :=
  ∀ (s : State) (t : TS) (rest : List HostLine), s.phase = .idle → s.script = decodeLines t ++ rest →
    ∃ u, core.run 2 s = .next u ∧ u.done = 1#1 ∧ u.phase = .idle ∧ u.ts = t ∧ u.buffer = s.buffer ∧ u.script = rest

/-- R141: the completion event. `done` = 1 exactly in a step from BUSY to IDLE that no reset cuts short, so each request
not cut short ends in one; then `emit` = `ret`, and when `emit` = 1 the `rec_*` ports carry the record handed off; outside a
completion `emit` is 0. -/
def Obligations.DoneExactlyInACompletion : Prop :=
  ∀ s t : State, step s = .next t →
    (t.done = 1#1 ↔ s.phase = .busy ∧ t.phase = .idle ∧ t.rst ≠ 1#1) ∧
    (s.phase = .busy → t.rst ≠ 1#1 → t.done = 1#1 ∧ t.phase = .idle) ∧
    (t.done = 1#1 → t.emit = t.ret) ∧
    (t.emit = 1#1 → ∃ r, t.sink = s.sink ++ [r] ∧ t.out = r.ports) ∧
    (t.done ≠ 1#1 → t.emit = 0#1)

/-- R128: one handoff for a claim, none otherwise: a step either has `emit` = 1 and hands off one record, the one on the
`rec_*` ports, in a completion that validation passed; or has `emit` = 0 and hands off nothing. So `emit` = 1 in no step but
a completion. -/
def Obligations.HandoffOnceForEachClaim : Prop :=
  ∀ s t : State, step s = .next t →
    ((t.emit = 1#1 ∧ ∃ r, t.sink = s.sink ++ [r] ∧ t.out = r.ports) ∨ (t.emit = 0#1 ∧ t.sink = s.sink)) ∧
    (t.emit = 1#1 → t.done = 1#1) ∧
    (t.done = 1#1 → (t.emit = 1#1 ↔ accepts t.build.scope t.buffer = true))

/-- R150: no step faults, and neither does DECODE; a transaction completes as a Reject with `ret` = 0 and no record, or
as a Claim with `ret` = 1 and one record, and it is a Claim exactly when validation passes. -/
def Obligations.NoFaultOnlyClaimOrReject : Prop :=
  (∀ (s : State) (r : Fault), step s ≠ .fault r ∧ exec .decode s ≠ .fault r) ∧
  (∀ s : State, s.phase = .busy → s.req ≠ 1#1 →
    ∃ t, exec .decode s = .next t ∧ t.done = 1#1 ∧
      ((accepts s.build.scope s.buffer = false ∧ t.ret = 0#1 ∧ t.emit = 0#1 ∧ t.sink = s.sink) ∨
       (accepts s.build.scope s.buffer = true ∧ t.ret = 1#1 ∧ t.emit = 1#1 ∧
         ∃ r, t.sink = s.sink ++ [r] ∧ t.out = r.ports)))

/-- The build's parameters are fixed: no step changes them. -/
def Obligations.NoStepChangesTheBuild : Prop :=
  ∀ s t : State, step s = .next t → t.build = s.build

/-! ## The invariant -/

/-- The invariant holds right after reset. -/
def Obligations.ResetMeetsTheStateInvariant : Prop :=
  State.reset.Inv

/-- Every step keeps the invariant: the buffer stays canonical and within its ports, no transaction-local value is held
between steps, a BUSY block has no output, `emit` = `ret` in a completion, and only legal records leave. -/
def Obligations.EveryStepKeepsTheStateInvariant : Prop :=
  ∀ s t : State, s.Inv → step s = .next t → t.Inv

/-! ## The host's lines and the buffer -/

/-- R42: the byte length of a row is its bit length divided by 8, rounded up. -/
def Obligations.RowLengthRoundsUp : Prop :=
  ∀ (buf : BitBuffer) (r : Nat),
    buf.rowLen r = (buf.bitsOf r + 7) / 8 ∧
    buf.bitsOf r ≤ 8 * buf.rowLen r ∧ 8 * buf.rowLen r < buf.bitsOf r + 8 ∧
    (33 ≤ buf.bitsOf r → buf.bitsOf r ≤ 40 → buf.rowLen r = 5)

/-- A presented row is read back: its length, its bytes as given, padding bits included; every other row keeps its
length and bytes. -/
def Obligations.PresentedRowIsReadBack : Prop :=
  ∀ (s : State) (r bits : Nat) (bytes : List Byte) (rest : List HostLine),
    s.phase = .idle → s.buffer.wf → s.script = .row r bits bytes :: rest → r < s.build.maxRows →
    bits ≤ 8 * s.build.maxRowBytes → bytes.length = (bits + 7) / 8 →
    ∃ t, step s = .next t ∧ t.phase = .idle ∧ t.buffer.numRows = s.buffer.numRows ∧
      t.buffer.bitsOf r = bits ∧
      (∀ (b : Nat) (h : b < bytes.length), t.buffer.bytes.read r b = bytes[b]) ∧
      (∀ r' b', r' ≠ r → t.buffer.bitsOf r' = s.buffer.bitsOf r' ∧
        t.buffer.bytes.read r' b' = s.buffer.bytes.read r' b')

/-- A line the ports cannot take is refused: more rows than `MAX_ROWS`, a row outside the row slots, a bit length above
`ROW_BITS_MAX`, or a number of bytes other than the row's length (log 25). -/
def Obligations.UnpresentableLineIsRefused : Prop :=
  (∀ (s : State) (n : Nat) (rest : List HostLine), s.script = .rows n :: rest → s.build.maxRows < n →
    step s = .refused .notPresentable) ∧
  (∀ (s : State) (r bits : Nat) (bytes : List Byte) (rest : List HostLine), s.script = .row r bits bytes :: rest →
    (s.build.maxRows ≤ r ∨ 8 * s.build.maxRowBytes < bits ∨ bytes.length ≠ (bits + 7) / 8) →
    step s = .refused .notPresentable)

/-- R44: no operation writes the buffer; nor does any operation change another input port, the build or the host's
pending actions. -/
def Obligations.NoOperationWritesTheBuffer : Prop :=
  ∀ (i : Instr) (s t : State), exec i s = .next t →
    t.buffer = s.buffer ∧ t.ts = s.ts ∧ t.req = s.req ∧ t.rst = s.rst ∧ t.build = s.build ∧ t.script = s.script ∧
      (∀ r b, t.buffer.bufRead r b = s.buffer.bufRead r b)

/-- The frame of the stages: an operation other than DECODE changes only transaction-local signals, and BUILD_RECORD
also the `rec_*` ports (log 19). -/
def Obligations.StagesChangeOnlySignals : Prop :=
  ∀ (i : Instr) (s t : State), i ≠ .decode → exec i s = .next t →
    t = { s with sig := t.sig, out := t.out } ∧ (i ≠ .buildRecord → t.out = s.out)

/-! ## Encoding -/

/-- The request word: 1 selects DECODE and 0 requests nothing; a well-formed request is read back from its encoding,
and only from it. -/
def Obligations.RequestBitSelectsDecodeAlone : Prop :=
  decode 1#1 = .selects .decode ∧ decode 0#1 = .noRequest ∧
  (∀ i : Instr, i.wf = true ↔ decode (encode i) = .selects i) ∧
  (∀ (w : Bit) (i : Instr), decode w = .selects i → encode i = w)

/-- Words of the two formats, written out from their layout, decode to what they stand for: a request word, and the frame
00 80 D2 F3 70 with address 0, battery OK, unknown1 0, channel select 0, temperature 0x0D2, unknown2 15, humidity 0x37. -/
def Obligations.WrittenWordsDecode : Prop :=
  decodeTableWord 8 1 = some .decode ∧ decodeTableWord 8 0 = none ∧
  decodeFrame 0b0000000010000000110100101111001101110000#40 =
    { rc := 0x00#8, batt := 1#1, unk1 := 0#1, chSel := 0#2, temp := 0x0D2#12, unk2 := 0xF#4, hum := 0x37#8, low := 0#4 }

/-- Decoding an encoded frame gives back every field at every value. -/
def Obligations.FrameDecodesWhatWasEncoded : Prop :=
  ∀ f : FrameFields, decodeFrame (encodeFrame f) = f

/-- Encoding a decoded frame gives back every bit of the word. -/
def Obligations.FrameEncodesWhatWasDecoded : Prop :=
  ∀ w : BitVec 40, encodeFrame (decodeFrame w) = w

/-- R109: each bit of W[39:4] feeds exactly one of the seven fields and W[3:0] feeds none: the read masks are disjoint
and together 0xFFFFFFFFF0; two words give a field the same value exactly when they agree on every bit of its mask, so that
each bit of the mask reaches the field and no other bit does; and the extractions may run in either order. -/
def Obligations.EachFrameBitFeedsOneField : Prop :=
  extractions.Pairwise (fun i j => i.readMask &&& j.readMask = 0#40) ∧
  extractions.foldl (fun m i => m ||| i.readMask) 0#40 = 0xFFFFFFFFF0#40 ∧
  (∀ w w' : BitVec 40,
    (w &&& Instr.extTemp.readMask = w' &&& Instr.extTemp.readMask ↔ (decodeFrame w).temp = (decodeFrame w').temp) ∧
    (w &&& Instr.extHum.readMask = w' &&& Instr.extHum.readMask ↔ (decodeFrame w).hum = (decodeFrame w').hum) ∧
    (w &&& Instr.extRc.readMask = w' &&& Instr.extRc.readMask ↔ (decodeFrame w).rc = (decodeFrame w').rc) ∧
    (w &&& Instr.extCh.readMask = w' &&& Instr.extCh.readMask ↔ (decodeFrame w).chSel = (decodeFrame w').chSel) ∧
    (w &&& Instr.extBatt.readMask = w' &&& Instr.extBatt.readMask ↔ (decodeFrame w).batt = (decodeFrame w').batt) ∧
    (w &&& Instr.extUnk1.readMask = w' &&& Instr.extUnk1.readMask ↔ (decodeFrame w).unk1 = (decodeFrame w').unk1) ∧
    (w &&& Instr.extUnk2.readMask = w' &&& Instr.extUnk2.readMask ↔ (decodeFrame w).unk2 = (decodeFrame w').unk2)) ∧
  (∀ (i j : Instr) (s : State), i ∈ extractions → j ∈ extractions → 1 < s.buffer.numRows → 5 ≤ s.buffer.rowLen 1 →
    andThen (exec i s) (exec j) = andThen (exec j s) (exec i))

/-! ## The validator -/

/-- R80: VALIDATE runs the length guard first. Where it fails, `valid` = 0 and no byte check is run; otherwise `valid` is
the conjunction of the four byte conditions. Nothing else changes. -/
def Obligations.ValidateIsTheConjunction : Prop :=
  ∀ s : State,
    exec .validate s = .next { s with sig := (
      if lengthGuard s.build.scope s.buffer = true then
        { s.sig with
          lenOk := true
          preOk := decide (s.buffer.bytes.read 0 0 = 0#8)
          nzOk := decide (s.buffer.bytes.read 1 4 ≠ 0#8)
          maskOk := decide (s.buffer.bytes.read 1 3 &&& 0x78#8 ≠ 0#8)
          repOk := decide (s.buffer.bytes.read 1 4 = s.buffer.bytes.read 12 4)
          valid := decide (s.buffer.bytes.read 0 0 = 0#8 ∧ s.buffer.bytes.read 1 4 ≠ 0#8 ∧
            s.buffer.bytes.read 1 3 &&& 0x78#8 ≠ 0#8 ∧ s.buffer.bytes.read 1 4 = s.buffer.bytes.read 12 4) }
      else { s.sig with lenOk := false, valid := false }) }

/-- R81: CHK_LEN passes exactly when there are at least 13 rows and every row in the guard's scope has at least 5 bytes,
under each of the three scopes; the machine starts with the scope the spec decides. Nothing else changes. -/
def Obligations.LengthGuardUnderEachScope : Prop :=
  State.reset.build.scope = .first13 ∧
  ∀ s : State, ∃ t, exec .chkLen s = .next t ∧ t = { s with sig := { s.sig with lenOk := t.sig.lenOk } } ∧
    (t.sig.lenOk = true ↔ 13 ≤ s.buffer.numRows ∧
      match s.build.scope with
      | .first13 => ∀ r, r < 13 → 5 ≤ s.buffer.rowLen r
      | .accessed => 1 ≤ s.buffer.rowLen 0 ∧ 5 ≤ s.buffer.rowLen 1 ∧ 5 ≤ s.buffer.rowLen 12
      | .allRows => ∀ r, r < s.buffer.numRows → 5 ≤ s.buffer.rowLen r)

/-- R82: CHK_PREAMBLE passes exactly when row 0, byte 0 is zero. Nothing else changes. -/
def Obligations.ChkPreambleTestsForZero : Prop :=
  ∀ s : State, s.buffer.inBounds 0 0 →
    exec .chkPreamble s = .next { s with sig := { s.sig with preOk := decide ((s.buffer.bytes.read 0 0).toNat = 0) } }

/-- R83: CHK_NONZERO passes exactly when row 1, byte 4 is non-zero, all eight bits tested. Nothing else changes. -/
def Obligations.ChkNonzeroTestsTheWholeByte : Prop :=
  ∀ s : State, s.buffer.inBounds 1 4 →
    exec .chkNonzero s =
      .next { s with sig := { s.sig with nzOk := decide ((s.buffer.bytes.read 1 4).toNat ≠ 0) } }

/-- R84: CHK_MASK passes exactly when row 1, byte 3 has one of its bits 6 to 3 set. Nothing else changes. -/
def Obligations.ChkMaskTestsBitsSixToThree : Prop :=
  ∀ s : State, s.buffer.inBounds 1 3 →
    exec .chkMask s = .next { s with sig := { s.sig with
      maskOk := (s.buffer.bytes.read 1 3).getLsbD 6 || (s.buffer.bytes.read 1 3).getLsbD 5 ||
        (s.buffer.bytes.read 1 3).getLsbD 4 || (s.buffer.bytes.read 1 3).getLsbD 3 } }

/-- R85: CHK_REPEAT passes exactly when row 1, byte 4 equals row 12, byte 4. Nothing else changes. -/
def Obligations.ChkRepeatComparesByteFour : Prop :=
  ∀ s : State, s.buffer.inBounds 1 4 → s.buffer.inBounds 12 4 →
    exec .chkRepeat s = .next { s with sig := { s.sig with
      repOk := decide ((s.buffer.bytes.read 1 4).toNat = (s.buffer.bytes.read 12 4).toNat) } }

/-- A byte check run on its own on a byte that is not there fails its condition and raises nothing (log 18). -/
def Obligations.ByteChecksFailOutOfBounds : Prop :=
  (∀ s : State, ¬ s.buffer.inBounds 0 0 →
    exec .chkPreamble s = .next { s with sig := { s.sig with preOk := false } }) ∧
  (∀ s : State, ¬ s.buffer.inBounds 1 4 →
    exec .chkNonzero s = .next { s with sig := { s.sig with nzOk := false } }) ∧
  (∀ s : State, ¬ s.buffer.inBounds 1 3 →
    exec .chkMask s = .next { s with sig := { s.sig with maskOk := false } }) ∧
  (∀ s : State, (¬ s.buffer.inBounds 1 4 ∨ ¬ s.buffer.inBounds 12 4) →
    exec .chkRepeat s = .next { s with sig := { s.sig with repOk := false } })

/-- Under every scope, a passed length guard puts every address the block reads in bounds. -/
def Obligations.LengthGuardPutsEveryReadInBounds : Prop :=
  ∀ (scope : Config.LenGuardScope) (buf : BitBuffer), lengthGuard scope buf = true →
    ∀ a ∈ Instr.decode.reads, buf.inBounds a.1 a.2

/-- R151: a buffer with fewer than 13 rows, under any scope, or with a short row among the first 13, under the scope the
spec decides, is a Reject, whatever its bytes hold. -/
def Obligations.ShortBufferIsRejected : Prop :=
  ∀ s : State, s.phase = .busy → s.req ≠ 1#1 →
    (s.buffer.numRows < 13 ∨ (s.build.scope = .first13 ∧ ∃ r, r < 13 ∧ s.buffer.rowLen r < 5)) →
    ∃ t, exec .decode s = .next t ∧ t.done = 1#1 ∧ t.ret = 0#1 ∧ t.emit = 0#1 ∧ t.sink = s.sink ∧ t.phase = .idle

/-- An operation's outcome depends only on the bytes the address map gives it: with any other memory that agrees on them,
it does the same; and with a failed length guard VALIDATE and a completing DECODE depend on no byte at all. -/
def Obligations.OperationsDependOnlyOnTheirBytes : Prop :=
  (∀ (i : Instr) (s : State) (m : Memory), (∀ a ∈ i.reads, m.read a.1 a.2 = s.buffer.bytes.read a.1 a.2) →
    exec i (s.withBytes m) = mapNext (fun t => t.withBytes m) (exec i s)) ∧
  (∀ (i : Instr) (s : State) (m : Memory), i = .validate ∨ i = .decode →
    lengthGuard s.build.scope s.buffer = false →
    exec i (s.withBytes m) = mapNext (fun t => t.withBytes m) (exec i s))

/-! ## The extractor -/

/-- R101: with b1 and b2 in bounds, EXT_TEMP sets `t16` to b1[3:0] : b2 : 0000 and `temp` to `t16` read as signed and
shifted right by 4, between -2048 and 2047. Nothing else but its operand bytes changes. -/
def Obligations.ExtTempShiftsTheSixteenBitWord : Prop :=
  ∀ s : State, s.buffer.inBounds 1 1 → s.buffer.inBounds 1 2 →
    ∃ t, exec .extTemp s = .next t ∧
      t = { s with sig := { s.sig with
        b1 := s.buffer.bytes.read 1 1
        b2 := s.buffer.bytes.read 1 2
        t16 := (s.buffer.bytes.read 1 1).extractLsb' 0 4 ++ s.buffer.bytes.read 1 2 ++ 0#4
        temp := t.sig.temp } } ∧
      t.sig.temp.toInt = t.sig.t16.toInt / 16 ∧ -2048 ≤ t.sig.temp.toInt ∧ t.sig.temp.toInt ≤ 2047

/-- R102: for all bytes b1 and b2 in the frame row, `temp` is the 12-bit pattern v = b1[3:0] : b2 read as two's complement:
v - 4096 when bit 11 of v is 1, else v. -/
def Obligations.TemperatureIsSignExtended : Prop :=
  ∀ s t : State, exec .extTemp s = .next t →
    ∃ v : BitVec 12, v = (s.buffer.bytes.read 1 1).extractLsb' 0 4 ++ s.buffer.bytes.read 1 2 ∧ t.sig.temp = v ∧
      t.sig.temp.toInt = (if v.getLsbD 11 then (v.toNat : Int) - 4096 else (v.toNat : Int))

/-- R103: with b3 and b4 in bounds, EXT_HUM sets `hum` to the two nibbles b3[3:0] : b4[7:4] as an unsigned number, with no
range check. Nothing else but its operand bytes changes. -/
def Obligations.ExtHumJoinsTwoNibbles : Prop :=
  ∀ s : State, s.buffer.inBounds 1 3 → s.buffer.inBounds 1 4 →
    ∃ t, exec .extHum s = .next t ∧
      t = { s with sig := { s.sig with
        b3 := s.buffer.bytes.read 1 3, b4 := s.buffer.bytes.read 1 4, hum := t.sig.hum } } ∧
      t.sig.hum.toNat = (s.buffer.bytes.read 1 3).toNat % 16 * 16 + (s.buffer.bytes.read 1 4).toNat / 16

/-- R104: with b0 in bounds, EXT_RC sets `rc` to b0. Nothing else but its operand byte changes. -/
def Obligations.ExtRcIsByteZero : Prop :=
  ∀ s : State, s.buffer.inBounds 1 0 →
    exec .extRc s = .next { s with sig := { s.sig with
      b0 := s.buffer.bytes.read 1 0, rc := s.buffer.bytes.read 1 0 } }

/-- R105: with b1 in bounds, EXT_CH sets `ch` to the two bits b1[5:4] plus 1, so 1 to 4. Nothing else but its operand byte
changes. -/
def Obligations.ExtChIsOneBased : Prop :=
  ∀ s : State, s.buffer.inBounds 1 1 →
    ∃ t, exec .extCh s = .next t ∧
      t = { s with sig := { s.sig with b1 := s.buffer.bytes.read 1 1, ch := t.sig.ch } } ∧
      t.sig.ch.toNat = (s.buffer.bytes.read 1 1).toNat / 16 % 4 + 1 ∧ 1 ≤ t.sig.ch.toNat ∧ t.sig.ch.toNat ≤ 4

/-- R106: with b1 in bounds, EXT_BATT sets `batt` to b1[7]. Nothing else but its operand byte changes. -/
def Obligations.ExtBattIsBitSeven : Prop :=
  ∀ s : State, s.buffer.inBounds 1 1 →
    exec .extBatt s = .next { s with sig := { s.sig with
      b1 := s.buffer.bytes.read 1 1, batt := (s.buffer.bytes.read 1 1).extractLsb' 7 1 } }

/-- R107: with b1 in bounds, EXT_UNK1 sets `unk1` to b1[6], verbatim. Nothing else but its operand byte changes. -/
def Obligations.ExtUnk1IsBitSix : Prop :=
  ∀ s : State, s.buffer.inBounds 1 1 →
    exec .extUnk1 s = .next { s with sig := { s.sig with
      b1 := s.buffer.bytes.read 1 1, unk1 := (s.buffer.bytes.read 1 1).extractLsb' 6 1 } }

/-- R108: with b3 in bounds, EXT_UNK2 sets `unk2` to b3[7:4], verbatim. Nothing else but its operand byte changes. -/
def Obligations.ExtUnk2IsTheHighNibble : Prop :=
  ∀ s : State, s.buffer.inBounds 1 3 →
    exec .extUnk2 s = .next { s with sig := { s.sig with
      b3 := s.buffer.bytes.read 1 3, unk2 := (s.buffer.bytes.read 1 3).extractLsb' 4 4 } }

/-- R63: run one after another on a frame row of five bytes, the seven extractions give the fields cut from the frame word
W of row 1: W[27:16], W[11:4], W[39:32], W[29:28] + 1, W[31], W[30], W[15:12]. -/
def Obligations.ExtractionsFollowTheFrameLayout : Prop :=
  ∀ s : State, 1 < s.buffer.numRows → 5 ≤ s.buffer.rowLen 1 →
    ∃ t, extractions.foldl (fun o i => andThen o (exec i)) (.next s) = .next t ∧
      t = { s with sig := t.sig } ∧
      t.sig.temp = s.buffer.frame.extractLsb' 16 12 ∧
      t.sig.hum = s.buffer.frame.extractLsb' 4 8 ∧
      t.sig.rc = s.buffer.frame.extractLsb' 32 8 ∧
      t.sig.ch.toNat = (s.buffer.frame.extractLsb' 28 2).toNat + 1 ∧
      t.sig.batt = s.buffer.frame.extractLsb' 31 1 ∧
      t.sig.unk1 = s.buffer.frame.extractLsb' 30 1 ∧
      t.sig.unk2 = s.buffer.frame.extractLsb' 12 4

/-- An extraction run on its own on a row too short for a byte it needs stops, and names a byte it needs that is not there;
otherwise it completes (log 18). -/
def Obligations.ExtractionStopsOnlyOutOfBounds : Prop :=
  ∀ (i : Instr) (s : State), i ∈ extractions →
    ((∀ a ∈ i.reads, s.buffer.inBounds a.1 a.2) ∧ ∃ t, exec i s = .next t) ∨
    (∃ k, (1, k) ∈ i.reads ∧ ¬ s.buffer.inBounds 1 k ∧ exec i s = .fault (.bufReadOutOfBounds 1 k))

/-! ## The record -/

/-- BUILD_RECORD assembles the record from the timestamp, the model tag and the fields, with no decision (R120). The model's
reading, where the opcode table's text differs (log 19): run by itself it puts that record on the `rec_*` ports, and it
changes nothing else, neither `emit` nor `ret`. -/
def Obligations.BuildRecordAssemblesTheFields : Prop :=
  ∀ s : State, ∃ t, exec .buildRecord s = .next t ∧ t.out = t.sig.record.ports ∧
    t = { s with
      out := t.out
      sig := { s.sig with record :=
        { time := s.ts, model := "Mebus/433", rc := s.sig.rc, channel := s.sig.ch, battery := s.sig.batt,
          temperature := s.sig.temp, humidity := s.sig.hum, unknown1 := s.sig.unk1, unknown2 := s.sig.unk2 } } }

/-- R123: the rendered temperature is a sign for a negative value, the numeral of the whole degrees, a point, and one digit
for the tenths; zero has no sign. -/
def Obligations.TemperatureHasOneFractionalDigit : Prop :=
  ∀ r : Record, ∃ n d : Nat, d < 10 ∧ r.temperature.toInt.natAbs = 10 * n + d ∧
    (r.render.temperatureC).toList =
      (if r.temperature.toInt < 0 then ['-'] else []) ++ Nat.toDigits 10 n ++ ['.', Nat.digitChar d]

/-- The rendered temperature determines the value: no two of the 4096 temperatures have the same text. -/
def Obligations.RenderedTemperatureDeterminesTheValue : Prop :=
  ∀ r r' : Record, r.render.temperatureC = r'.render.temperatureC → r.temperature = r'.temperature

/-- R125 and R126: the battery is OK for 1 and LOW for 0; the address, the channel and the two unknown fields are the decimal
numerals of their unsigned values. -/
def Obligations.BatteryAndIntegerTexts : Prop :=
  ∀ r : Record,
    (r.battery = 1#1 → r.render.battery = "OK") ∧ (r.battery = 0#1 → r.render.battery = "LOW") ∧
    r.render.rc = toString r.rc.toNat ∧ r.render.channel = toString r.channel.toNat ∧
    r.render.unknown1 = toString r.unknown1.toNat ∧ r.render.unknown2 = toString r.unknown2.toNat

/-- The humidity's integer is the decimal numeral of its unsigned value (R124). The model's choice (log 22): the text is the
bare numeral, and the unit annotation, whose text and place R124 leaves open, is a field of its own. -/
def Obligations.HumidityTextIsTheBareNumeral : Prop :=
  ∀ r : Record, r.render.humidity = toString r.humidity.toNat ∧ r.render.humidityUnit = Config.humUnitAnnotation

/-- Every record on the ports of a handoff has a channel of 1 to 4. -/
def Obligations.HandedOffChannelIsOneToFour : Prop :=
  ∀ s t : State, step s = .next t → t.emit = 1#1 → 1 ≤ t.out.channel.toNat ∧ t.out.channel.toNat ≤ 4

/-! ## The transaction -/

/-- R140 and R143: a request while IDLE makes the block BUSY with no output; the completion is `Decode(buf, ts)`: the record
of the frame word with `ret` = 1 and one handoff where the buffer is accepted, else `ret` = 0 with no handoff. The inputs,
the build and the host's pending actions are unchanged. -/
def Obligations.DecodeIsTheOutcomeFunction : Prop :=
  (∀ s : State, s.phase = .idle → s.req = 1#1 →
    ∃ t, exec .decode s = .next t ∧ t.phase = .busy ∧ t.done = 0#1 ∧ t.emit = 0#1 ∧ t.sink = s.sink ∧
      t.buffer = s.buffer ∧ t.ts = s.ts ∧ t.build = s.build ∧ t.script = s.script) ∧
  (∀ s : State, s.phase = .busy → s.req ≠ 1#1 →
    ∃ t, exec .decode s = .next t ∧ t.phase = .idle ∧ t.done = 1#1 ∧
      t.buffer = s.buffer ∧ t.ts = s.ts ∧ t.build = s.build ∧ t.script = s.script ∧
      match decodeBuffer s.build.scope s.buffer s.ts with
      | some r => t.ret = 1#1 ∧ t.emit = 1#1 ∧ t.out = r.ports ∧ t.sink = s.sink ++ [r]
      | none => t.ret = 0#1 ∧ t.emit = 0#1 ∧ t.sink = s.sink)

/-- The model's choice (log 13), where R22 and R29 say that the transaction-local signals do not outlive their transaction:
a request that is accepted, a completion and a reset leave every one of them cleared. -/
def Obligations.SignalsEndWithTheTransaction : Prop :=
  ∀ s t : State, step s = .next t → (s.phase ≠ t.phase ∨ t.done = 1#1 ∨ t.rst = 1#1) → t.sig = Signals.cleared

/-- R20: the outcome of a transaction is a function of its inputs alone: from any two BUSY states with the same buffer, the
same timestamp and the same scope, the completions agree on `done`, `ret`, `emit`, the record on the ports and what is
handed off. -/
def Obligations.OutcomeIsAFunctionOfTheInputs : Prop :=
  ∀ s u : State, s.phase = .busy → u.phase = .busy → s.req ≠ 1#1 → u.req ≠ 1#1 →
    s.buffer = u.buffer → s.ts = u.ts → s.build.scope = u.build.scope →
    ∃ t v l, exec .decode s = .next t ∧ exec .decode u = .next v ∧
      t.done = v.done ∧ t.ret = v.ret ∧ t.emit = v.emit ∧ (t.emit = 1#1 → t.out = v.out) ∧
      t.sink = s.sink ++ l ∧ v.sink = u.sink ++ l

/-- Idempotence (R143): decoding the same buffer twice with the same timestamp hands off the same record twice, or nothing.
The model's choice, not R143's words: that both transactions are over after exactly four steps, each completion in the step
of its wait (log 21), one host line a step (log 1). -/
def Obligations.DecodingTwiceGivesTheSameRecord : Prop :=
  ∀ (s : State) (t : TS), s.phase = .idle → s.script = decodeLines t ++ decodeLines t →
    ∃ u, core.run 4 s = .next u ∧ u.phase = .idle ∧ (u.sink = s.sink ∨ ∃ r, u.sink = s.sink ++ [r, r])
end

