-- ==== Sys2Proof/Laws/Memory.lean ====
section
/-! SUPPORT. The laws of the sparse lists, of the buffer's bytes and of its row lengths. -/

namespace Sys2Proof.Machine

open Sys2Proof

section Sparse

variable {β : Type} {d : β} {m : List (Nat × β)} {k j : Nat} {v : β}

theorem sparseRead_eq_default_of_lt (h : ∀ x ∈ m, k < x.1) : sparseRead d m k = d := by
  induction m with
  | nil => rfl
  | cons a rest ih =>
    have ha := h a (by simp)
    simp only [sparseRead]
    rw [if_neg (by omega)]
    exact ih (fun x hx => h x (by simp [hx]))

theorem mem_of_mem_sparseErase {x : Nat × β} (h : x ∈ sparseErase m k) : x ∈ m := by
  induction m with
  | nil => simp [sparseErase] at h
  | cons a rest ih =>
    simp only [sparseErase] at h
    split at h
    · exact List.mem_cons_of_mem _ h
    · rcases List.mem_cons.1 h with rfl | h
      · simp
      · exact List.mem_cons_of_mem _ (ih h)

theorem mem_sparseInsert {x : Nat × β} (h : x ∈ sparseInsert m k v) : x = (k, v) ∨ x ∈ m := by
  induction m with
  | nil => simpa [sparseInsert] using h
  | cons a rest ih =>
    simp only [sparseInsert] at h
    split at h
    · simpa using h
    · split at h
      · rcases List.mem_cons.1 h with rfl | h
        · exact .inl rfl
        · exact .inr (List.mem_cons_of_mem _ h)
      · rcases List.mem_cons.1 h with rfl | h
        · exact .inr (by simp)
        · exact (ih h).imp_right (List.mem_cons_of_mem _)

theorem sparseErase_rising (h : m.Pairwise (fun x y => x.1 < y.1)) :
    (sparseErase m k).Pairwise (fun x y => x.1 < y.1) := by
  induction m with
  | nil => simp [sparseErase]
  | cons a rest ih =>
    rw [List.pairwise_cons] at h
    simp only [sparseErase]
    split
    · exact h.2
    · exact List.pairwise_cons.2 ⟨fun x hx => h.1 x (mem_of_mem_sparseErase hx), ih h.2⟩

theorem sparseInsert_rising (h : m.Pairwise (fun x y => x.1 < y.1)) :
    (sparseInsert m k v).Pairwise (fun x y => x.1 < y.1) := by
  induction m with
  | nil => simp [sparseInsert]
  | cons a rest ih =>
    have hc := h
    rw [List.pairwise_cons] at h
    simp only [sparseInsert]
    split
    · next hk =>
      refine List.pairwise_cons.2 ⟨fun x hx => ?_, hc⟩
      rcases List.mem_cons.1 hx with rfl | hx
      · exact hk
      · have := h.1 x hx; simp only at hk ⊢; omega
    · split
      · next hk => exact List.pairwise_cons.2 ⟨fun x hx => by simpa [hk] using h.1 x hx, h.2⟩
      · next hk hk' =>
        refine List.pairwise_cons.2 ⟨fun x hx => ?_, ih h.2⟩
        rcases mem_sparseInsert hx with rfl | hx
        · simp only; omega
        · exact h.1 x hx

/-- Writing keeps the canonical form. -/
theorem sparseWrite_wf [DecidableEq β] (h : sparseWf d m) : sparseWf d (sparseWrite d m k v) := by
  unfold sparseWrite
  split
  · exact ⟨sparseErase_rising h.1, fun x hx => h.2 x (mem_of_mem_sparseErase hx)⟩
  · next hv =>
    refine ⟨sparseInsert_rising h.1, fun x hx => ?_⟩
    rcases mem_sparseInsert hx with rfl | hx
    · exact hv
    · exact h.2 x hx

/-- Every entry after a write is the one written or was there. -/
theorem mem_sparseWrite [DecidableEq β] {x : Nat × β} (h : x ∈ sparseWrite d m k v) : x = (k, v) ∨ x ∈ m := by
  unfold sparseWrite at h
  split at h
  · exact .inr (mem_of_mem_sparseErase h)
  · exact mem_sparseInsert h

theorem sparseRead_insert : sparseRead d (sparseInsert m k v) j = if j = k then v else sparseRead d m j := by
  induction m with
  | nil => simp [sparseInsert, sparseRead]
  | cons a rest ih =>
    simp only [sparseInsert]
    split
    · simp [sparseRead]
    · split
      · next hk => subst hk; simp only [sparseRead]; split <;> rfl
      · next hk =>
        simp only [sparseRead, ih]
        by_cases hja : j = a.1
        · simp [hja, show a.1 ≠ k by omega]
        · simp [hja]

theorem sparseRead_erase (h : m.Pairwise (fun x y => x.1 < y.1)) :
    sparseRead d (sparseErase m k) j = if j = k then d else sparseRead d m j := by
  induction m with
  | nil => simp [sparseErase, sparseRead]
  | cons a rest ih =>
    rw [List.pairwise_cons] at h
    simp only [sparseErase]
    by_cases hk : k = a.1
    · rw [if_pos hk]
      by_cases hj : j = k
      · rw [if_pos hj]
        exact sparseRead_eq_default_of_lt (fun x hx => by have := h.1 x hx; omega)
      · rw [if_neg hj]
        simp only [sparseRead]
        rw [if_neg (by omega)]
    · rw [if_neg hk]
      simp only [sparseRead, ih h.2]
      by_cases hja : j = a.1
      · simp [hja, show a.1 ≠ k by omega]
      · simp [hja]

/-- Read after write: the value written at its key, every other key as before. -/
theorem sparseRead_write [DecidableEq β] (h : m.Pairwise (fun x y => x.1 < y.1)) :
    sparseRead d (sparseWrite d m k v) j = if j = k then v else sparseRead d m j := by
  unfold sparseWrite
  split
  · next hv => rw [sparseRead_erase h, hv]
  · exact sparseRead_insert

theorem sparseErase_of_lt (h : ∀ x ∈ m, k < x.1) : sparseErase m k = m := by
  induction m with
  | nil => rfl
  | cons a rest ih =>
    have ha := h a (by simp)
    simp only [sparseErase]
    rw [if_neg (by omega), ih (fun x hx => h x (by simp [hx]))]

/-- Writing the value that is there changes nothing. -/
theorem sparseWrite_self [DecidableEq β] (h : sparseWf d m) : sparseWrite d m k (sparseRead d m k) = m := by
  induction m with
  | nil => simp [sparseRead, sparseWrite, sparseErase]
  | cons a rest ih =>
    have hp := List.pairwise_cons.1 h.1
    have hr := ih ⟨hp.2, fun x hx => h.2 x (by simp [hx])⟩
    have ha := h.2 a (by simp)
    by_cases hk : k = a.1
    · subst hk
      simp [sparseRead, sparseWrite, sparseInsert, ha]
    · rcases Nat.lt_or_gt_of_ne hk with hlt | hgt
      · have hall : ∀ x ∈ a :: rest, k < x.1 := by
          intro x hx
          rcases List.mem_cons.1 hx with rfl | hx
          · exact hlt
          · exact hlt.trans (hp.1 x hx)
        rw [sparseRead_eq_default_of_lt hall, sparseWrite, if_pos rfl, sparseErase_of_lt hall]
      · simp only [sparseRead, if_neg hk]
        unfold sparseWrite at hr ⊢
        split_ifs at hr ⊢ with hd
        · simp [sparseErase, hk, hr]
        · simp [sparseInsert, hk, hr, show ¬ k < a.1 by omega]

end Sparse

/-- The address pairing is one-to-one. -/
theorem slotKey_inj {r b r' b' : Nat} : slotKey r b = slotKey r' b' ↔ r = r' ∧ b = b' := by
  simp [slotKey, Nat.pair_eq_pair]

/-- A byte write keeps the memory canonical. -/
theorem Memory.write_wf {m : Memory} (h : Memory.wf m) (r b : Nat) (v : Byte) : Memory.wf (m.write r b v) :=
  sparseWrite_wf h

/-- Read after write of bytes. -/
theorem Memory.read_write {m : Memory} (h : Memory.wf m) (r b r' b' : Nat) (v : Byte) :
    (m.write r b v).read r' b' = if r' = r ∧ b' = b then v else m.read r' b' := by
  simp only [Memory.read, Memory.write, sparseRead_write h.1, slotKey_inj]

/-- Writing a row keeps the memory canonical. -/
theorem Memory.writeRow_wf {m : Memory} (h : Memory.wf m) (r b : Nat) (l : List Byte) :
    Memory.wf (m.writeRow r b l) := by
  induction l generalizing m b with
  | nil => exact h
  | cons v rest ih => exact ih (Memory.write_wf h r b v) (b + 1)

/-- Read after writing a row: its bytes where they stand, every other byte as before. -/
theorem Memory.read_writeRow {m : Memory} (h : Memory.wf m) (r b r' b' : Nat) (l : List Byte) :
    (m.writeRow r b l).read r' b' =
      if h' : r' = r ∧ b ≤ b' ∧ b' < b + l.length then l[b' - b]'(by omega) else m.read r' b' := by
  induction l generalizing m b with
  | nil => simp [Memory.writeRow]
  | cons v rest ih =>
    simp only [Memory.writeRow, ih (Memory.write_wf h r b v), Memory.read_write h, List.length_cons]
    by_cases hr : r' = r
    · by_cases h1 : b' = b
      · subst h1
        rw [dif_neg (by omega), if_pos ⟨hr, rfl⟩, dif_pos (by omega)]
        simp
      · by_cases h2 : b + 1 ≤ b' ∧ b' < b + 1 + rest.length
        · rw [dif_pos ⟨hr, h2.1, h2.2⟩, dif_pos (by omega)]
          rw [List.getElem_cons]
          rw [dif_neg (by omega)]
          congr 1
        · rw [dif_neg (by omega), if_neg (by omega), dif_neg (by omega)]
    · rw [dif_neg (by omega), if_neg (by omega), dif_neg (by omega)]

/-- A buffer read is the stored byte when in bounds. -/
theorem BitBuffer.bufRead_of_inBounds {buf : BitBuffer} {r b : Nat} (h : buf.inBounds r b) :
    buf.bufRead r b = some (buf.bytes.read r b) := if_pos h

/-- Two buffers are the same to the block exactly when they have the same rows, row lengths and `BufRead` results. -/
theorem BitBuffer.sameAs_iff_bufRead {buf old : BitBuffer} :
    buf.sameAs old ↔ buf.numRows = old.numRows ∧ buf.rowBits = old.rowBits ∧
      ∀ r b, buf.bufRead r b = old.bufRead r b := by
  refine and_congr_right fun hn => and_congr_right fun hb => ?_
  have hl : ∀ r, buf.rowLen r = old.rowLen r := fun r => by simp only [BitBuffer.rowLen, BitBuffer.bitsOf, hb]
  simp only [BitBuffer.bufRead, BitBuffer.inBounds, hn, hl]
  constructor
  · intro h r b
    split_ifs with hi
    · rw [h r hi.1 b hi.2]
    · rfl
  · intro h r hr b hb'
    simpa [hr, hb'] using h r b

@[refl] theorem BitBuffer.sameAs_rfl (buf : BitBuffer) : buf.sameAs buf := ⟨rfl, rfl, fun _ _ _ _ => rfl⟩

/-- A buffer read has no value when out of bounds. -/
theorem BitBuffer.bufRead_of_not_inBounds {buf : BitBuffer} {r b : Nat} (h : ¬ buf.inBounds r b) :
    buf.bufRead r b = none := if_neg h

end Sys2Proof.Machine
end

