-- ==== Sys2Proof/Laws/State.lean ====
section
/-! SUPPORT. One lemma per field and update of the state, true by definition. -/

namespace Sys2Proof.Machine

open Sys2Proof

/-! ## `State.onSig` -/

@[simp] theorem State.onSig_phase (s : State) (f : Signals → Signals) : (s.onSig f).phase = s.phase := rfl
@[simp] theorem State.onSig_req (s : State) (f : Signals → Signals) : (s.onSig f).req = s.req := rfl
@[simp] theorem State.onSig_rst (s : State) (f : Signals → Signals) : (s.onSig f).rst = s.rst := rfl
@[simp] theorem State.onSig_ts (s : State) (f : Signals → Signals) : (s.onSig f).ts = s.ts := rfl
@[simp] theorem State.onSig_buffer (s : State) (f : Signals → Signals) : (s.onSig f).buffer = s.buffer := rfl
@[simp] theorem State.onSig_done (s : State) (f : Signals → Signals) : (s.onSig f).done = s.done := rfl
@[simp] theorem State.onSig_ret (s : State) (f : Signals → Signals) : (s.onSig f).ret = s.ret := rfl
@[simp] theorem State.onSig_emit (s : State) (f : Signals → Signals) : (s.onSig f).emit = s.emit := rfl
@[simp] theorem State.onSig_out (s : State) (f : Signals → Signals) : (s.onSig f).out = s.out := rfl
@[simp] theorem State.onSig_sig (s : State) (f : Signals → Signals) : (s.onSig f).sig = f s.sig := rfl
@[simp] theorem State.onSig_build (s : State) (f : Signals → Signals) : (s.onSig f).build = s.build := rfl
@[simp] theorem State.onSig_script (s : State) (f : Signals → Signals) : (s.onSig f).script = s.script := rfl
@[simp] theorem State.onSig_sink (s : State) (f : Signals → Signals) : (s.onSig f).sink = s.sink := rfl
@[simp] theorem State.onSig_freeCtr (s : State) (f : Signals → Signals) : (s.onSig f).freeCtr = s.freeCtr := rfl

/-! ## `State.silent` -/

@[simp] theorem State.silent_phase (s : State) : (s.silent).phase = s.phase := rfl
@[simp] theorem State.silent_req (s : State) : (s.silent).req = s.req := rfl
@[simp] theorem State.silent_rst (s : State) : (s.silent).rst = s.rst := rfl
@[simp] theorem State.silent_ts (s : State) : (s.silent).ts = s.ts := rfl
@[simp] theorem State.silent_buffer (s : State) : (s.silent).buffer = s.buffer := rfl
@[simp] theorem State.silent_done (s : State) : (s.silent).done = 0#1 := rfl
@[simp] theorem State.silent_ret (s : State) : (s.silent).ret = Config.freeRet s.freeCtr := rfl
@[simp] theorem State.silent_emit (s : State) : (s.silent).emit = 0#1 := rfl
@[simp] theorem State.silent_out (s : State) : (s.silent).out = freePorts s.freeCtr := rfl
@[simp] theorem State.silent_sig (s : State) : (s.silent).sig = s.sig := rfl
@[simp] theorem State.silent_build (s : State) : (s.silent).build = s.build := rfl
@[simp] theorem State.silent_script (s : State) : (s.silent).script = s.script := rfl
@[simp] theorem State.silent_sink (s : State) : (s.silent).sink = s.sink := rfl
@[simp] theorem State.silent_freeCtr (s : State) : (s.silent).freeCtr = s.freeCtr + 1 := rfl

/-! ## `State.accept` -/

@[simp] theorem State.accept_phase (s : State) : (s.accept).phase = .busy := rfl
@[simp] theorem State.accept_req (s : State) : (s.accept).req = s.req := rfl
@[simp] theorem State.accept_rst (s : State) : (s.accept).rst = s.rst := rfl
@[simp] theorem State.accept_ts (s : State) : (s.accept).ts = s.ts := rfl
@[simp] theorem State.accept_buffer (s : State) : (s.accept).buffer = s.buffer := rfl
@[simp] theorem State.accept_done (s : State) : (s.accept).done = 0#1 := rfl
@[simp] theorem State.accept_ret (s : State) : (s.accept).ret = Config.freeRet s.freeCtr := rfl
@[simp] theorem State.accept_emit (s : State) : (s.accept).emit = 0#1 := rfl
@[simp] theorem State.accept_out (s : State) : (s.accept).out = freePorts s.freeCtr := rfl
@[simp] theorem State.accept_sig (s : State) : (s.accept).sig = Signals.cleared := rfl
@[simp] theorem State.accept_build (s : State) : (s.accept).build = s.build := rfl
@[simp] theorem State.accept_script (s : State) : (s.accept).script = s.script := rfl
@[simp] theorem State.accept_sink (s : State) : (s.accept).sink = s.sink := rfl
@[simp] theorem State.accept_freeCtr (s : State) : (s.accept).freeCtr = s.freeCtr + 1 := rfl

/-! ## `State.applyReset` -/

@[simp] theorem State.applyReset_phase (s : State) : (s.applyReset).phase = .idle := rfl
@[simp] theorem State.applyReset_req (s : State) : (s.applyReset).req = s.req := rfl
@[simp] theorem State.applyReset_rst (s : State) : (s.applyReset).rst = s.rst := rfl
@[simp] theorem State.applyReset_ts (s : State) : (s.applyReset).ts = s.ts := rfl
@[simp] theorem State.applyReset_buffer (s : State) : (s.applyReset).buffer = s.buffer := rfl
@[simp] theorem State.applyReset_done (s : State) : (s.applyReset).done = 0#1 := rfl
@[simp] theorem State.applyReset_ret (s : State) : (s.applyReset).ret = 0#1 := rfl
@[simp] theorem State.applyReset_emit (s : State) : (s.applyReset).emit = 0#1 := rfl
@[simp] theorem State.applyReset_out (s : State) : (s.applyReset).out = freePorts s.freeCtr := rfl
@[simp] theorem State.applyReset_sig (s : State) : (s.applyReset).sig = Signals.cleared := rfl
@[simp] theorem State.applyReset_build (s : State) : (s.applyReset).build = s.build := rfl
@[simp] theorem State.applyReset_script (s : State) : (s.applyReset).script = s.script := rfl
@[simp] theorem State.applyReset_sink (s : State) : (s.applyReset).sink = s.sink := rfl
@[simp] theorem State.applyReset_freeCtr (s : State) : (s.applyReset).freeCtr = s.freeCtr + 1 := rfl

/-! ## `State.handoff` -/

@[simp] theorem State.handoff_phase (s : State) (r : Record) : (s.handoff r).phase = s.phase := rfl
@[simp] theorem State.handoff_req (s : State) (r : Record) : (s.handoff r).req = s.req := rfl
@[simp] theorem State.handoff_rst (s : State) (r : Record) : (s.handoff r).rst = s.rst := rfl
@[simp] theorem State.handoff_ts (s : State) (r : Record) : (s.handoff r).ts = s.ts := rfl
@[simp] theorem State.handoff_buffer (s : State) (r : Record) : (s.handoff r).buffer = s.buffer := rfl
@[simp] theorem State.handoff_done (s : State) (r : Record) : (s.handoff r).done = s.done := rfl
@[simp] theorem State.handoff_ret (s : State) (r : Record) : (s.handoff r).ret = s.ret := rfl
@[simp] theorem State.handoff_emit (s : State) (r : Record) : (s.handoff r).emit = 1#1 := rfl
@[simp] theorem State.handoff_out (s : State) (r : Record) : (s.handoff r).out = r.ports := rfl
@[simp] theorem State.handoff_sig (s : State) (r : Record) : (s.handoff r).sig = s.sig := rfl
@[simp] theorem State.handoff_build (s : State) (r : Record) : (s.handoff r).build = s.build := rfl
@[simp] theorem State.handoff_script (s : State) (r : Record) : (s.handoff r).script = s.script := rfl
@[simp] theorem State.handoff_sink (s : State) (r : Record) : (s.handoff r).sink = s.sink ++ [r] := rfl
@[simp] theorem State.handoff_freeCtr (s : State) (r : Record) : (s.handoff r).freeCtr = s.freeCtr := rfl

/-! ## `State.returnWith` -/

@[simp] theorem State.returnWith_phase (s : State) (k : Bit) : (s.returnWith k).phase = .idle := rfl
@[simp] theorem State.returnWith_req (s : State) (k : Bit) : (s.returnWith k).req = s.req := rfl
@[simp] theorem State.returnWith_rst (s : State) (k : Bit) : (s.returnWith k).rst = s.rst := rfl
@[simp] theorem State.returnWith_ts (s : State) (k : Bit) : (s.returnWith k).ts = s.ts := rfl
@[simp] theorem State.returnWith_buffer (s : State) (k : Bit) : (s.returnWith k).buffer = s.buffer := rfl
@[simp] theorem State.returnWith_done (s : State) (k : Bit) : (s.returnWith k).done = 1#1 := rfl
@[simp] theorem State.returnWith_ret (s : State) (k : Bit) : (s.returnWith k).ret = k := rfl
@[simp] theorem State.returnWith_emit (s : State) (k : Bit) : (s.returnWith k).emit = s.emit := rfl
@[simp] theorem State.returnWith_out (s : State) (k : Bit) : (s.returnWith k).out = s.out := rfl
@[simp] theorem State.returnWith_sig (s : State) (k : Bit) : (s.returnWith k).sig = Signals.cleared := rfl
@[simp] theorem State.returnWith_build (s : State) (k : Bit) : (s.returnWith k).build = s.build := rfl
@[simp] theorem State.returnWith_script (s : State) (k : Bit) : (s.returnWith k).script = s.script := rfl
@[simp] theorem State.returnWith_sink (s : State) (k : Bit) : (s.returnWith k).sink = s.sink := rfl
@[simp] theorem State.returnWith_freeCtr (s : State) (k : Bit) : (s.returnWith k).freeCtr = s.freeCtr := rfl

/-! ## `State.reject` -/

@[simp] theorem State.reject_phase (s : State) : (s.reject).phase = .idle := rfl
@[simp] theorem State.reject_req (s : State) : (s.reject).req = s.req := rfl
@[simp] theorem State.reject_rst (s : State) : (s.reject).rst = s.rst := rfl
@[simp] theorem State.reject_ts (s : State) : (s.reject).ts = s.ts := rfl
@[simp] theorem State.reject_buffer (s : State) : (s.reject).buffer = s.buffer := rfl
@[simp] theorem State.reject_done (s : State) : (s.reject).done = 1#1 := rfl
@[simp] theorem State.reject_ret (s : State) : (s.reject).ret = 0#1 := rfl
@[simp] theorem State.reject_emit (s : State) : (s.reject).emit = 0#1 := rfl
@[simp] theorem State.reject_out (s : State) : (s.reject).out = freePorts s.freeCtr := rfl
@[simp] theorem State.reject_sig (s : State) : (s.reject).sig = Signals.cleared := rfl
@[simp] theorem State.reject_build (s : State) : (s.reject).build = s.build := rfl
@[simp] theorem State.reject_script (s : State) : (s.reject).script = s.script := rfl
@[simp] theorem State.reject_sink (s : State) : (s.reject).sink = s.sink := rfl
@[simp] theorem State.reject_freeCtr (s : State) : (s.reject).freeCtr = s.freeCtr + 1 := rfl

/-! ## `State.withBytes` -/

@[simp] theorem State.withBytes_phase (s : State) (m : Memory) : (s.withBytes m).phase = s.phase := rfl
@[simp] theorem State.withBytes_req (s : State) (m : Memory) : (s.withBytes m).req = s.req := rfl
@[simp] theorem State.withBytes_rst (s : State) (m : Memory) : (s.withBytes m).rst = s.rst := rfl
@[simp] theorem State.withBytes_ts (s : State) (m : Memory) : (s.withBytes m).ts = s.ts := rfl
@[simp] theorem State.withBytes_done (s : State) (m : Memory) : (s.withBytes m).done = s.done := rfl
@[simp] theorem State.withBytes_ret (s : State) (m : Memory) : (s.withBytes m).ret = s.ret := rfl
@[simp] theorem State.withBytes_emit (s : State) (m : Memory) : (s.withBytes m).emit = s.emit := rfl
@[simp] theorem State.withBytes_out (s : State) (m : Memory) : (s.withBytes m).out = s.out := rfl
@[simp] theorem State.withBytes_sig (s : State) (m : Memory) : (s.withBytes m).sig = s.sig := rfl
@[simp] theorem State.withBytes_build (s : State) (m : Memory) : (s.withBytes m).build = s.build := rfl
@[simp] theorem State.withBytes_script (s : State) (m : Memory) : (s.withBytes m).script = s.script := rfl
@[simp] theorem State.withBytes_sink (s : State) (m : Memory) : (s.withBytes m).sink = s.sink := rfl
@[simp] theorem State.withBytes_freeCtr (s : State) (m : Memory) : (s.withBytes m).freeCtr = s.freeCtr := rfl
@[simp] theorem State.withBytes_buffer_numRows (s : State) (m : Memory) : (s.withBytes m).buffer.numRows = s.buffer.numRows := rfl
@[simp] theorem State.withBytes_buffer_rowBits (s : State) (m : Memory) : (s.withBytes m).buffer.rowBits = s.buffer.rowBits := rfl
@[simp] theorem State.withBytes_buffer_bytes (s : State) (m : Memory) : (s.withBytes m).buffer.bytes = m := rfl

end Sys2Proof.Machine
end

