-- ==== Sys2Proof/Laws/Ops.lean ====
section
/-! SUPPORT. One lemma for each shared operation, saying all it can do. -/

namespace Sys2Proof.Machine

open Sys2Proof

section Sequencing

variable {s t : State} {f : State → Host.Outcome State Fault Refusal}

@[simp] theorem andThen_next : andThen (.next s) f = f s := rfl
@[simp] theorem andThen_fault (r : Fault) : andThen (.fault r) f = .fault r := rfl
@[simp] theorem andThen_refused (r : Refusal) : andThen (.refused r) f = .refused r := rfl

theorem andThen_eq_next {o : Host.Outcome State Fault Refusal} :
    andThen o f = .next t ↔ ∃ u, o = .next u ∧ f u = .next t := by
  cases o <;> simp [andThen]

@[simp] theorem mapNext_next (g : State → State) : mapNext g (.next s) = .next (g s) := rfl
@[simp] theorem mapNext_fault (g : State → State) (r : Fault) : mapNext g (.fault r) = .fault r := rfl
@[simp] theorem mapNext_refused (g : State → State) (r : Refusal) : mapNext g (.refused r) = .refused r := rfl

end Sequencing

/-- Reading a frame byte for an extraction: the stored byte, or the one fault of the model. -/
theorem withFrameByte_eq (s : State) (k : Nat) (f : Byte → Host.Outcome State Fault Refusal) :
    withFrameByte s k f =
      if s.buffer.inBounds Config.frameRow k then f (s.buffer.bytes.read Config.frameRow k)
      else .fault (.bufReadOutOfBounds Config.frameRow k) := by
  unfold withFrameByte BitBuffer.bufRead
  split_ifs <;> simp_all

/-- A bounds-aware condition: in bounds and the condition holds of the stored byte. -/
theorem byteCheck_eq_true {buf : BitBuffer} {r b : Nat} {p : Byte → Bool} :
    byteCheck buf r b p = true ↔ buf.inBounds r b ∧ p (buf.bytes.read r b) = true := by
  unfold byteCheck BitBuffer.bufRead
  split_ifs with h
  · exact ⟨fun hp => ⟨h, hp⟩, fun hp => hp.2⟩
  · simp [h]

/-- In bounds, a bounds-aware condition is the condition on the stored byte. -/
theorem byteCheck_of_inBounds {buf : BitBuffer} {r b : Nat} {p : Byte → Bool} (h : buf.inBounds r b) :
    byteCheck buf r b p = p (buf.bytes.read r b) := by
  unfold byteCheck BitBuffer.bufRead
  rw [if_pos h]

/-- Under every scope, a passed length guard gives the rows it reads their length. -/
theorem lengthGuard_rows {scope : Config.LenGuardScope} {buf : BitBuffer} (h : lengthGuard scope buf = true) :
    13 ≤ buf.numRows ∧ 1 ≤ buf.rowLen 0 ∧ 5 ≤ buf.rowLen 1 ∧ 5 ≤ buf.rowLen 12 := by
  simp only [lengthGuard, Bool.and_eq_true, decide_eq_true_eq, Config.minRows, Config.minRowBytes,
    Config.preambleRow, Config.frameRow, Config.repeatRow] at h
  obtain ⟨hn, hs⟩ := h
  cases scope with
  | accessed => simpa [hn, and_assoc] using hs
  | first13 | allRows =>
    simp only [List.all_eq_true, List.mem_range, decide_eq_true_eq] at hs
    exact ⟨hn, (by decide : 1 ≤ 5).trans (hs 0 (by omega)), hs 1 (by omega), hs 12 (by omega)⟩

/-- A presented line changes only input ports. -/
theorem present_cases {s d : State} {l : HostLine} (h : s.present l = some d) :
    (∃ n, l = .rows n ∧ n ≤ s.build.maxRows ∧ d = { s with buffer := { s.buffer with numRows := n } }) ∨
    (∃ r bits bytes, l = .row r bits bytes ∧ r < s.build.maxRows ∧ bits ≤ 8 * s.build.maxRowBytes ∧
      bytes.length = (bits + 7) / 8 ∧
      d = { s with buffer := { s.buffer with
              rowBits := sparseWrite 0 s.buffer.rowBits r bits
              bytes := s.buffer.bytes.writeRow r 0 bytes } }) ∨
    (∃ t, l = .stamp t ∧ d = { s with ts := t }) ∨
    (∃ t, l = .request t ∧ d = { s with req := 1#1, ts := t }) ∨
    (l = .wait ∧ d = s) ∨
    (l = .reset ∧ d = { s with rst := 1#1 }) := by
  cases l <;> simp only [State.present, Option.ite_none_right_eq_some, Option.some.injEq] at h <;> simp_all

/-- The host's action of a step changes only input ports and the script. -/
theorem drive_unchanged {s d : State} (h : s.drive = some d) :
    d.phase = s.phase ∧ d.done = s.done ∧ d.ret = s.ret ∧ d.emit = s.emit ∧ d.out = s.out ∧ d.sig = s.sig ∧
      d.build = s.build ∧ d.script = s.script.tail ∧ d.sink = s.sink ∧ d.freeCtr = s.freeCtr := by
  unfold State.drive at h
  split at h
  · next hs => cases h; simp [hs]
  · next hs =>
    rcases present_cases h with ⟨_, _, _, rfl⟩ | ⟨_, _, _, _, _, _, _, rfl⟩ | ⟨_, _, rfl⟩ | ⟨_, _, rfl⟩ | ⟨_, rfl⟩ |
      ⟨_, rfl⟩ <;> simp [hs]

/-- The host's action keeps the buffer canonical and within the ports. -/
theorem drive_buffer {s d : State} (h : s.drive = some d) (hw : s.buffer.wf) (hf : s.buffer.fits s.build) :
    d.buffer.wf ∧ d.buffer.fits d.build := by
  unfold State.drive at h
  split at h
  · cases h; exact ⟨hw, hf⟩
  · rcases present_cases h with ⟨n, _, hn, rfl⟩ | ⟨r, bits, l, _, hr, hb, _, rfl⟩ | ⟨_, _, rfl⟩ | ⟨_, _, rfl⟩ |
      ⟨_, rfl⟩ | ⟨_, rfl⟩
    · exact ⟨hw, hn, hf.2⟩
    · refine ⟨⟨Memory.writeRow_wf hw.1 r 0 l, sparseWrite_wf hw.2⟩, hf.1, fun x hx => ?_⟩
      rcases mem_sparseWrite hx with rfl | hx
      · exact ⟨hr, hb⟩
      · exact hf.2 x hx
    all_goals exact ⟨hw, hf⟩

end Sys2Proof.Machine
end

