-- ==== Sys2Proof/Laws/Stages.lean ====
section
/-! SUPPORT. What the stages and the step do, each said once. -/

namespace Sys2Proof.Machine

open Sys2Proof

/-- VALIDATE: the guard, then all four checks or none. -/
theorem execValidate_eq (s : State) :
    execValidate s =
      if lengthGuard s.build.scope s.buffer = true then
        .next (s.onSig (fun g => { g with
          lenOk := true
          preOk := preambleZero s.buffer
          nzOk := byte4Nonzero s.buffer
          maskOk := maskBitsSet s.buffer
          repOk := byte4Repeats s.buffer
          valid := preambleZero s.buffer && byte4Nonzero s.buffer && maskBitsSet s.buffer && byte4Repeats s.buffer }))
      else .next (s.onSig (fun g => { g with lenOk := false, valid := false })) := by
  unfold execValidate execChkLen
  cases h : lengthGuard s.build.scope s.buffer <;>
    simp [execChkPreamble, execChkNonzero, execChkMask, execChkRepeat, State.onSig]

/-- The signals after all seven extractions. -/
def Signals.extracted (g : Signals) (b0 b1 b2 b3 b4 : Byte) : Signals :=
  { g with
    b0 := b0, b1 := b1, b2 := b2, b3 := b3, b4 := b4
    t16 := tempWord b1 b2
    temp := tempField (tempWord b1 b2)
    hum := humField b3 b4
    rc := rcField b0
    ch := chField b1
    batt := battField b1
    unk1 := unk1Field b1
    unk2 := unk2Field b3 }

/-! ## Each extraction, with the bytes it reads in bounds -/

theorem execExtTemp_eq {s : State} (h1 : s.buffer.inBounds 1 1) (h2 : s.buffer.inBounds 1 2) :
    execExtTemp s = .next (s.onSig (fun g => { g with
        b1 := s.buffer.bytes.read 1 1, b2 := s.buffer.bytes.read 1 2, t16 := tempWord (s.buffer.bytes.read 1 1) (s.buffer.bytes.read 1 2)
        temp := tempField (tempWord (s.buffer.bytes.read 1 1) (s.buffer.bytes.read 1 2)) })) := by
  simp only [execExtTemp, withFrameByte, BitBuffer.bufRead_of_inBounds h1, BitBuffer.bufRead_of_inBounds h2]

theorem execExtHum_eq {s : State} (h3 : s.buffer.inBounds 1 3) (h4 : s.buffer.inBounds 1 4) :
    execExtHum s = .next (s.onSig (fun g => { g with
        b3 := s.buffer.bytes.read 1 3, b4 := s.buffer.bytes.read 1 4
        hum := humField (s.buffer.bytes.read 1 3) (s.buffer.bytes.read 1 4) })) := by
  simp only [execExtHum, withFrameByte, BitBuffer.bufRead_of_inBounds h3, BitBuffer.bufRead_of_inBounds h4]

theorem execExtRc_eq {s : State} (h0 : s.buffer.inBounds 1 0) :
    execExtRc s = .next (s.onSig (fun g => { g with
        b0 := s.buffer.bytes.read 1 0, rc := rcField (s.buffer.bytes.read 1 0) })) := by
  simp only [execExtRc, withFrameByte, BitBuffer.bufRead_of_inBounds h0]

theorem execExtCh_eq {s : State} (h1 : s.buffer.inBounds 1 1) :
    execExtCh s = .next (s.onSig (fun g => { g with
        b1 := s.buffer.bytes.read 1 1, ch := chField (s.buffer.bytes.read 1 1) })) := by
  simp only [execExtCh, withFrameByte, BitBuffer.bufRead_of_inBounds h1]

theorem execExtBatt_eq {s : State} (h1 : s.buffer.inBounds 1 1) :
    execExtBatt s = .next (s.onSig (fun g => { g with
        b1 := s.buffer.bytes.read 1 1, batt := battField (s.buffer.bytes.read 1 1) })) := by
  simp only [execExtBatt, withFrameByte, BitBuffer.bufRead_of_inBounds h1]

theorem execExtUnk1_eq {s : State} (h1 : s.buffer.inBounds 1 1) :
    execExtUnk1 s = .next (s.onSig (fun g => { g with
        b1 := s.buffer.bytes.read 1 1, unk1 := unk1Field (s.buffer.bytes.read 1 1) })) := by
  simp only [execExtUnk1, withFrameByte, BitBuffer.bufRead_of_inBounds h1]

theorem execExtUnk2_eq {s : State} (h3 : s.buffer.inBounds 1 3) :
    execExtUnk2 s = .next (s.onSig (fun g => { g with
        b3 := s.buffer.bytes.read 1 3, unk2 := unk2Field (s.buffer.bytes.read 1 3) })) := by
  simp only [execExtUnk2, withFrameByte, BitBuffer.bufRead_of_inBounds h3]

/-- With the frame row at least five bytes long, the extractions set every field. -/
theorem extractFields_eq {s : State} (hn : 1 < s.buffer.numRows) (hl : 5 ≤ s.buffer.rowLen 1) :
    extractFields s = .next (s.onSig (fun g => g.extracted (s.buffer.bytes.read 1 0) (s.buffer.bytes.read 1 1)
      (s.buffer.bytes.read 1 2) (s.buffer.bytes.read 1 3) (s.buffer.bytes.read 1 4))) := by
  have h : ∀ k, k < 5 → s.buffer.bufRead Config.frameRow k = some (s.buffer.bytes.read 1 k) :=
    fun k hk => BitBuffer.bufRead_of_inBounds ⟨hn, by simp only [Config.frameRow]; omega⟩
  simp only [extractFields, execExtTemp, execExtHum, execExtRc, execExtCh, execExtBatt, execExtUnk1, execExtUnk2,
    withFrameByte, h 0 (by omega), h 1 (by omega), h 2 (by omega), h 3 (by omega),
    h 4 (by omega), andThen_next, State.onSig, Signals.extracted]

/-- With the frame row at least five bytes long, a claim hands off the record of its bytes. -/
theorem claim_eq {s : State} (hn : 1 < s.buffer.numRows) (hl : 5 ≤ s.buffer.rowLen 1) (g : Signals) :
    claim { s with sig := g } =
      .next ((s.handoff (assemble s.ts (g.extracted (s.buffer.bytes.read 1 0) (s.buffer.bytes.read 1 1)
        (s.buffer.bytes.read 1 2) (s.buffer.bytes.read 1 3) (s.buffer.bytes.read 1 4)))).returnWith 1#1) := by
  rw [claim, extractFields_eq (s := { s with sig := g }) hn hl]
  rfl

/-- The record of a claim, from the frame bytes by the formulas of the extractions. -/
def claimedRecord (s : State) : Record :=
  assemble s.ts (s.sig.extracted (s.buffer.bytes.read 1 0) (s.buffer.bytes.read 1 1)
      (s.buffer.bytes.read 1 2) (s.buffer.bytes.read 1 3) (s.buffer.bytes.read 1 4))

/-- The verdict of VALIDATE. -/
def verdict (s : State) : Bool :=
  lengthGuard s.build.scope s.buffer &&
    (preambleZero s.buffer && byte4Nonzero s.buffer && maskBitsSet s.buffer && byte4Repeats s.buffer)

/-- A completion always gives a next state: a claim with its record, or a reject. -/
theorem complete_eq (s : State) :
    complete s =
      if verdict s = true then .next ((s.handoff (claimedRecord s)).returnWith 1#1) else .next s.reject := by
  rw [complete, execValidate_eq, verdict]
  cases hg : lengthGuard s.build.scope s.buffer with
  | false => rfl
  | true =>
    have hr := lengthGuard_rows hg
    cases hv : preambleZero s.buffer && byte4Nonzero s.buffer && maskBitsSet s.buffer && byte4Repeats s.buffer with
    | false => rfl
    | true => exact claim_eq (by omega) hr.2.2.1 _

/-- A BUSY block whose host neither resets nor requests, and holds its inputs, runs the rest of its DECODE. -/
theorem step_of_held {s d : State} (hd : s.drive = some d) (hr : d.rst ≠ 1#1) (hp : d.phase = .busy) (hq : d.req ≠ 1#1)
    (h : d.buffer.sameAs s.buffer ∧ d.ts = s.ts) : step s = exec .decode d := by
  simp only [step, controlStep, hd, hr, hp, hq, decode, if_false]
  rw [if_pos h]

/-- A BUSY block whose host changes an input, without a reset or a request, is refused. -/
theorem step_of_not_held {s d : State} (hd : s.drive = some d) (hr : d.rst ≠ 1#1) (hp : d.phase = .busy)
    (hq : d.req ≠ 1#1) (h : ¬ (d.buffer.sameAs s.buffer ∧ d.ts = s.ts)) : step s = .refused .inputChangedWhileBusy := by
  simp only [step, controlStep, hd, hr, hp, hq, decode, if_false]
  rw [if_neg h]

/-- What one step can do, from the state `d` whose ports the host has driven. -/
theorem step_cases {s t : State} (h : step s = .next t) :
    ∃ d, s.drive = some d ∧
      ((d.rst = 1#1 ∧ t = d.applyReset) ∨
       (d.rst ≠ 1#1 ∧ d.phase = .idle ∧ d.req = 1#1 ∧ t = d.accept) ∨
       (d.rst ≠ 1#1 ∧ d.phase = .idle ∧ d.req = 0#1 ∧ t = d.silent) ∨
       (d.rst ≠ 1#1 ∧ d.phase = .busy ∧ d.req = 0#1 ∧ d.buffer.sameAs s.buffer ∧ d.ts = s.ts ∧
         ((verdict d = true ∧ t = (d.handoff (claimedRecord d)).returnWith 1#1) ∨
          (verdict d = false ∧ t = d.reject)))) := by
  unfold step controlStep at h
  split at h
  · cases h
  · next d hd =>
    refine ⟨d, hd, ?_⟩
    split at h
    · next hr => cases h; exact .inl ⟨hr, rfl⟩
    · next hr =>
      split at h
      · next i hi =>
        obtain ⟨hreq, rfl⟩ := decode_selects hi
        cases hp : d.phase
        · simp only [exec, execDecode, hp, hreq, if_true] at h
          cases h; exact .inr (.inl ⟨hr, rfl, hreq, rfl⟩)
        · simp [exec, execDecode, hp, hreq] at h
      · next hi =>
        have hreq := decode_noRequest.1 hi
        cases hp : d.phase
        · simp only [hp] at h
          cases h; exact .inr (.inr (.inl ⟨hr, rfl, hreq, rfl⟩))
        · simp only [hp] at h
          split at h
          · next hsame =>
            simp only [exec, execDecode, hp, hreq, complete_eq, show ¬ (0#1 = 1#1) by decide, if_false] at h
            refine .inr (.inr (.inr ⟨hr, rfl, hreq, hsame.1, hsame.2, ?_⟩))
            split at h
            · next hv => cases h; exact .inl ⟨hv, rfl⟩
            · next hv => cases h; exact .inr ⟨by simpa using hv, rfl⟩
          · cases h

end Sys2Proof.Machine
end

