-- ==== Sys2Proof/Laws/Fields.lean ====
section
/-! SUPPORT. The bit formulas of the fields against the layout of the frame word, and the checks on bytes in bounds. -/

namespace Sys2Proof.Machine

open Sys2Proof

/-- The 16-bit word of EXT_TEMP is b1[3:0] : b2 : 0000. -/
theorem tempWord_eq (b1 b2 : Byte) : tempWord b1 b2 = b1.extractLsb' 0 4 ++ b2 ++ 0#4 := by
  apply BitVec.eq_of_getLsbD_eq
  intro i hi
  simp only [tempWord, BitVec.getLsbD_or, BitVec.getLsbD_shiftLeft, BitVec.getLsbD_setWidth, BitVec.getLsbD_append,
    BitVec.getLsbD_extractLsb', BitVec.getLsbD_zero]
  interval_cases i <;> simp

/-- Shifting a left-aligned 12-bit pattern back gives the pattern. -/
theorem tempField_append (v : BitVec 12) : tempField (v ++ 0#4) = v := by
  have h : tempField (v ++ 0#4) = BitVec.signExtend 12 ((v ++ 0#4).sshiftRight 4) := by
    rw [tempField, BitVec.signExtend, BitVec.toInt_sshiftRight]
  rw [h]
  apply BitVec.eq_of_getLsbD_eq
  intro i hi
  simp only [BitVec.getLsbD_signExtend, BitVec.getLsbD_sshiftRight, BitVec.getLsbD_append]
  interval_cases i <;> simp

/-- The temperature field is b1[3:0] : b2. -/
theorem tempField_tempWord (b1 b2 : Byte) : tempField (tempWord b1 b2) = b1.extractLsb' 0 4 ++ b2 := by
  rw [tempWord_eq]
  exact tempField_append _

/-- The humidity field is b3[3:0] : b4[7:4]. -/
theorem humField_eq (b3 b4 : Byte) : humField b3 b4 = b3.extractLsb' 0 4 ++ b4.extractLsb' 4 4 := by
  apply BitVec.eq_of_getLsbD_eq
  intro i hi
  simp only [humField, BitVec.getLsbD_or, BitVec.getLsbD_shiftLeft, BitVec.getLsbD_setWidth, BitVec.getLsbD_append,
    BitVec.getLsbD_extractLsb', BitVec.getLsbD_ushiftRight]
  interval_cases i <;> simp

/-- The channel is b1[5:4] plus 1. -/
theorem chField_eq (b1 : Byte) : chField b1 = (b1.extractLsb' 4 2).setWidth 3 + 1#3 := by
  have : ((b1 &&& Config.chMask) >>> 4).setWidth 3 = (b1.extractLsb' 4 2).setWidth 3 := by
    apply BitVec.eq_of_getLsbD_eq
    intro i hi
    simp only [BitVec.getLsbD_and, BitVec.getLsbD_setWidth, BitVec.getLsbD_extractLsb', BitVec.getLsbD_ushiftRight]
    interval_cases i <;> simp [Config.chMask]
  rw [chField, this]

/-- The channel as a number. -/
theorem chField_toNat (b1 : Byte) : (chField b1).toNat = b1.toNat / 16 % 4 + 1 := by
  rw [chField_eq]
  simp [BitVec.toNat_add, BitVec.toNat_setWidth, BitVec.extractLsb'_toNat, Nat.shiftRight_eq_div_pow]
  omega

/-- The battery flag is b1[7]. -/
theorem battField_eq (b1 : Byte) : battField b1 = b1.extractLsb' 7 1 := by
  revert b1; decide

/-- unknown1 is b1[6]. -/
theorem unk1Field_eq (b1 : Byte) : unk1Field b1 = b1.extractLsb' 6 1 := by
  apply BitVec.eq_of_getLsbD_eq
  intro i hi
  simp only [unk1Field, BitVec.getLsbD_and, BitVec.getLsbD_setWidth, BitVec.getLsbD_extractLsb', BitVec.getLsbD_ushiftRight]
  interval_cases i; simp [Config.unk1Mask]

/-- unknown2 is b3[7:4]. -/
theorem unk2Field_eq (b3 : Byte) : unk2Field b3 = b3.extractLsb' 4 4 := by
  apply BitVec.eq_of_getLsbD_eq
  intro i hi
  simp only [unk2Field, BitVec.getLsbD_and, BitVec.getLsbD_setWidth, BitVec.getLsbD_extractLsb', BitVec.getLsbD_ushiftRight]
  interval_cases i <;> simp [Config.unk2Mask]

/-- CHK_PREAMBLE on a byte in bounds. -/
theorem preambleZero_of_inBounds {buf : BitBuffer} (h : buf.inBounds 0 0) :
    preambleZero buf = decide (buf.bytes.read 0 0 = 0#8) := by
  rw [preambleZero, byteCheck_of_inBounds h]; rfl

/-- CHK_NONZERO on a byte in bounds. -/
theorem byte4Nonzero_of_inBounds {buf : BitBuffer} (h : buf.inBounds 1 4) :
    byte4Nonzero buf = decide (buf.bytes.read 1 4 ≠ 0#8) := by
  rw [byte4Nonzero, byteCheck_of_inBounds h]
  by_cases hv : buf.bytes.read 1 4 = 0#8 <;> simp [hv]

/-- CHK_MASK on a byte in bounds. -/
theorem maskBitsSet_of_inBounds {buf : BitBuffer} (h : buf.inBounds 1 3) :
    maskBitsSet buf = decide (buf.bytes.read 1 3 &&& 0x78#8 ≠ 0#8) := by
  rw [maskBitsSet, byteCheck_of_inBounds h]
  by_cases hv : buf.bytes.read 1 3 &&& 0x78#8 = 0#8 <;> simp [hv]

/-- CHK_REPEAT on bytes in bounds. -/
theorem byte4Repeats_of_inBounds {buf : BitBuffer} (h : buf.inBounds 1 4) (h' : buf.inBounds 12 4) :
    byte4Repeats buf = decide (buf.bytes.read 1 4 = buf.bytes.read 12 4) := by
  rw [byte4Repeats, byteCheck_of_inBounds h, byteCheck_of_inBounds h']
  by_cases hv : buf.bytes.read 1 4 = buf.bytes.read 12 4 <;> simp [hv]

/-- The verdict of the checks is the acceptance of R143's function. -/
theorem verdict_eq_accepts (s : State) : verdict s = accepts s.build.scope s.buffer := by
  rw [verdict, accepts]
  cases hg : lengthGuard s.build.scope s.buffer with
  | false => simp
  | true =>
    obtain ⟨hn, h0, h1, h12⟩ := lengthGuard_rows hg
    rw [preambleZero_of_inBounds ⟨by omega, by omega⟩, byte4Nonzero_of_inBounds ⟨by omega, by omega⟩,
      maskBitsSet_of_inBounds ⟨by omega, by omega⟩,
      byte4Repeats_of_inBounds ⟨by omega, by omega⟩ ⟨by omega, by omega⟩]
    simp only [Bool.true_and, Bool.and_assoc]
    rfl

/-- The fields of the frame word of five bytes. -/
theorem decodeFrame_frameWord (b0 b1 b2 b3 b4 : Byte) :
    decodeFrame (frameWord b0 b1 b2 b3 b4) =
      { rc := b0, batt := b1.extractLsb' 7 1, unk1 := b1.extractLsb' 6 1, chSel := b1.extractLsb' 4 2,
        temp := b1.extractLsb' 0 4 ++ b2, unk2 := b3.extractLsb' 4 4,
        hum := b3.extractLsb' 0 4 ++ b4.extractLsb' 4 4, low := b4.extractLsb' 0 4 } := by
  simp only [decodeFrame, frameWord, FrameFields.mk.injEq]
  refine ⟨?_, ?_, ?_, ?_, ?_, ?_, ?_, ?_⟩ <;>
  · apply BitVec.eq_of_getLsbD_eq
    intro i hi
    simp only [BitVec.getLsbD_extractLsb', BitVec.getLsbD_append]
    interval_cases i <;> simp

/-- The claimed record is the record of the frame word. -/
theorem claimedRecord_eq_frameRecord (s : State) : claimedRecord s = frameRecord s.ts s.buffer.frame := by
  simp only [claimedRecord, assemble, Signals.extracted, frameRecord, BitBuffer.frame, BitBuffer.byteAt,
    decodeFrame_frameWord, tempField_tempWord, humField_eq, chField_eq, battField_eq, unk1Field_eq,
    unk2Field_eq, rcField, Config.modelTag]

/-- The length guard looks at the rows and their lengths alone. -/
theorem lengthGuard_congr {scope : Config.LenGuardScope} {buf old : BitBuffer} (hn : buf.numRows = old.numRows)
    (hb : buf.rowBits = old.rowBits) : lengthGuard scope buf = lengthGuard scope old := by
  obtain ⟨n, l, m⟩ := buf
  obtain ⟨n', l', m'⟩ := old
  cases hn
  cases hb
  rfl

/-- Buffers that are the same to the block have one outcome (R143). -/
theorem decodeBuffer_sameAs {buf old : BitBuffer} (h : buf.sameAs old) (scope : Config.LenGuardScope) (t : TS) :
    decodeBuffer scope buf t = decodeBuffer scope old t := by
  obtain ⟨hn, hb, hr⟩ := h
  have hg := lengthGuard_congr (scope := scope) hn hb
  cases hl : lengthGuard scope old with
  | false => simp [decodeBuffer, accepts, hg, hl]
  | true =>
    obtain ⟨h13, h0, h1, h12⟩ := lengthGuard_rows hl
    have r1 : ∀ b, b < 5 → buf.byteAt 1 b = old.byteAt 1 b := fun b hb => hr 1 (by omega) b (by omega)
    have e0 : buf.byteAt 0 0 = old.byteAt 0 0 := hr 0 (by omega) 0 (by omega)
    have e12 : buf.byteAt 12 4 = old.byteAt 12 4 := hr 12 (by omega) 4 (by omega)
    simp [decodeBuffer, accepts, BitBuffer.frame, hg, e0, e12, r1]

end Sys2Proof.Machine
end

