-- ==== Sys2Proof/Laws/PerInstr.lean ====
section
/-! SUPPORT. What the encoding says of each operation as syntax (R60, R62, R64). -/

/-- Every row's word is the request bit, which decodes to DECODE; the operation is read back from it exactly when it is a
well-formed request, the stage `request` of the table; it reads no address outside the block's address map; and it cuts bits from the frame word exactly
when its format is FRAME40. -/
def Sys2Proof.Laws.Encoding.Statement (i : Sys2Proof.Instr) : Prop :=
  Sys2Proof.decode (Sys2Proof.encode i) = .selects .decode ∧
  (i.wf = true ↔ Sys2Proof.decode (Sys2Proof.encode i) = .selects i) ∧
  (∀ a ∈ i.reads, a ∈ Sys2Proof.Instr.decode.reads) ∧
  (i.readMask ≠ 0#40 ↔ i.format = .frame40) ∧
  (i.wf = true ↔ i.stage = .request)

theorem Sys2Proof.Laws.Encoding.decode : Sys2Proof.Laws.Encoding.Statement .decode := by
  unfold Sys2Proof.Laws.Encoding.Statement; decide

theorem Sys2Proof.Laws.Encoding.validate : Sys2Proof.Laws.Encoding.Statement .validate := by
  unfold Sys2Proof.Laws.Encoding.Statement; decide

theorem Sys2Proof.Laws.Encoding.chkLen : Sys2Proof.Laws.Encoding.Statement .chkLen := by
  unfold Sys2Proof.Laws.Encoding.Statement; decide

theorem Sys2Proof.Laws.Encoding.chkPreamble : Sys2Proof.Laws.Encoding.Statement .chkPreamble := by
  unfold Sys2Proof.Laws.Encoding.Statement; decide

theorem Sys2Proof.Laws.Encoding.chkNonzero : Sys2Proof.Laws.Encoding.Statement .chkNonzero := by
  unfold Sys2Proof.Laws.Encoding.Statement; decide

theorem Sys2Proof.Laws.Encoding.chkMask : Sys2Proof.Laws.Encoding.Statement .chkMask := by
  unfold Sys2Proof.Laws.Encoding.Statement; decide

theorem Sys2Proof.Laws.Encoding.chkRepeat : Sys2Proof.Laws.Encoding.Statement .chkRepeat := by
  unfold Sys2Proof.Laws.Encoding.Statement; decide

theorem Sys2Proof.Laws.Encoding.extTemp : Sys2Proof.Laws.Encoding.Statement .extTemp := by
  unfold Sys2Proof.Laws.Encoding.Statement; decide

theorem Sys2Proof.Laws.Encoding.extHum : Sys2Proof.Laws.Encoding.Statement .extHum := by
  unfold Sys2Proof.Laws.Encoding.Statement; decide

theorem Sys2Proof.Laws.Encoding.extRc : Sys2Proof.Laws.Encoding.Statement .extRc := by
  unfold Sys2Proof.Laws.Encoding.Statement; decide

theorem Sys2Proof.Laws.Encoding.extCh : Sys2Proof.Laws.Encoding.Statement .extCh := by
  unfold Sys2Proof.Laws.Encoding.Statement; decide

theorem Sys2Proof.Laws.Encoding.extBatt : Sys2Proof.Laws.Encoding.Statement .extBatt := by
  unfold Sys2Proof.Laws.Encoding.Statement; decide

theorem Sys2Proof.Laws.Encoding.extUnk1 : Sys2Proof.Laws.Encoding.Statement .extUnk1 := by
  unfold Sys2Proof.Laws.Encoding.Statement; decide

theorem Sys2Proof.Laws.Encoding.extUnk2 : Sys2Proof.Laws.Encoding.Statement .extUnk2 := by
  unfold Sys2Proof.Laws.Encoding.Statement; decide

theorem Sys2Proof.Laws.Encoding.buildRecord : Sys2Proof.Laws.Encoding.Statement .buildRecord := by
  unfold Sys2Proof.Laws.Encoding.Statement; decide
end

