-- ==== Sys2Proof/Tests/Slice0.lean ====
section
/-! SUPPORT. The model's own tests, each on one operation or one step. Expected values come from the examples of the rules
and from 95_test_vectors.md; the rule or vector is named at each test. Then one witness for each statement with
hypotheses. -/

namespace Sys2Proof.Tests

open Sys2Proof Sys2Proof.Machine

/-! ## Small states -/

/-- A build with numbers for the open sizes, so that a test can be evaluated. -/
def build (scope : Config.LenGuardScope) : Build := { scope := scope, maxRows := 25, maxRowBytes := 5 }

/-- The base buffer of 95_test_vectors.md: 13 rows of `bits` bits; rows 1 and 12 hold the frame (rows 2 to 11 are never
read, so their bytes are left out here). -/
def baseBuffer (bits : Nat) (f : List Byte) : BitBuffer where
  numRows := 13
  rowBits := (List.range 13).map (fun r => (r, bits))
  bytes := (Memory.writeRow [] 1 0 f).writeRow 12 0 f

/-- A BUSY state on a buffer, with timestamp 7. -/
def busy (scope : Config.LenGuardScope) (buf : BitBuffer) : State :=
  { State.reset with phase := .busy, ts := 7, buffer := buf, build := build scope }

/-- An IDLE state on a buffer with a host script. -/
def idle (buf : BitBuffer) (script : List HostLine) : State :=
  { State.reset with buffer := buf, build := build .first13, script := script }

/-- A field of the next state, if there is one. -/
def field {α : Type} (o : Host.Outcome State Fault Refusal) (f : State → α) : Option α :=
  match o with
  | .next s => some (f s)
  | .fault _ => none
  | .refused _ => none

/-- The refusal, if the step is refused. -/
def refusal (o : Host.Outcome State Fault Refusal) : Option Refusal :=
  match o with
  | .next _ => none
  | .fault _ => none
  | .refused r => some r

/-- The fault, if the step faults. -/
def fault (o : Host.Outcome State Fault Refusal) : Option Fault :=
  match o with
  | .next _ => none
  | .fault r => some r
  | .refused _ => none

/-- The frame of L1-4a. -/
def frameA : List Byte := [0x00#8, 0x80#8, 0xD2#8, 0xF3#8, 0x70#8]
/-- The frame of P1. -/
def frameP1 : List Byte := [0xA5#8, 0x3F#8, 0xCE#8, 0xF4#8, 0x10#8]

/-- The base buffer with row 7 of 32 bits (V5). -/
def bufferV5 : BitBuffer := { baseBuffer 36 frameA with rowBits := sparseWrite 0 (baseBuffer 36 frameA).rowBits 7 32 }
/-- The base buffer with row 12 byte 4 = 0x71 (V13). -/
def bufferV13 : BitBuffer := { baseBuffer 36 frameA with bytes := (baseBuffer 36 frameA).bytes.write 12 4 0x71#8 }

/-! ## Well-formedness and presentable lines -/

theorem test_wf_takes_decode : Instr.decode.wf = true := by decide
/-- R64: no bit of its own selects a stage. -/
theorem test_wf_refuses_stage : Instr.validate.wf = false ∧ Instr.buildRecord.wf = false := by decide
/-- R41: more rows than the ports address. -/
theorem test_present_refuses_rows : (idle (baseBuffer 36 frameA) []).present (.rows 26) = none := by decide
/-- R26: no row slot 25. -/
theorem test_present_refuses_row : (idle (baseBuffer 36 frameA) []).present (.row 25 8 [0#8]) = none := by decide
/-- R41: 41 bits are more than 8 * 5. -/
theorem test_present_refuses_bits :
    (idle (baseBuffer 36 frameA) []).present (.row 1 41 [0#8, 0#8, 0#8, 0#8, 0#8, 0#8]) = none := by decide
/-- R42: 36 bits are five bytes. -/
theorem test_present_refuses_bytes :
    (idle (baseBuffer 36 frameA) []).present (.row 1 36 [0#8, 0#8, 0#8, 0#8]) = none := by decide

/-! ## Decoding -/

/-- R60: the request word of every row of the table is 0x1, and selects DECODE (R64). -/
theorem test_decode_request_word : decodeTableWord 8 0x1 = some .decode := by decide
/-- R60: `req` = 0 requests nothing. -/
theorem test_decode_no_request : decodeTableWord 8 0x0 = none := by decide
/-- R61, letter a: the pattern with only the address field set to 0xA5. -/
theorem test_frame_a : (decodeFrame 0b1010010100000000000000000000000000000000#40).rc = 0xA5#8 := by decide
/-- R61, letter b. -/
theorem test_frame_b : (decodeFrame 0b0000000010000000000000000000000000000000#40).batt = 1#1 := by decide
/-- R61, letter u. -/
theorem test_frame_u : (decodeFrame 0b0000000001000000000000000000000000000000#40).unk1 = 1#1 := by decide
/-- R61, letter c: select 2. -/
theorem test_frame_c : (decodeFrame 0b0000000000100000000000000000000000000000#40).chSel = 2#2 := by decide
/-- R61, letter t: 0xFCE. -/
theorem test_frame_t : (decodeFrame 0b0000000000001111110011100000000000000000#40).temp = 0xFCE#12 := by decide
/-- R61, letter k: 5. -/
theorem test_frame_k : (decodeFrame 0b0000000000000000000000000101000000000000#40).unk2 = 5#4 := by decide
/-- R61, letter h: 0x37. -/
theorem test_frame_h : (decodeFrame 0b0000000000000000000000000000001101110000#40).hum = 0x37#8 := by decide
/-- R60: the request is the first word after reset, and the step accepts it. -/
theorem test_first_request : field (step (State.reset.withFetchWord 8 1)) (fun t => (t.phase, t.done, t.emit)) =
    some (.busy, 0#1, 0#1) := by decide

/-! ## The validator -/

/-- V1: every check passes. -/
theorem test_validate_v1 : field (exec .validate (busy .first13 (baseBuffer 36 frameA)))
    (fun t => (t.sig.lenOk, t.sig.preOk, t.sig.nzOk, t.sig.maskOk, t.sig.repOk, t.sig.valid)) =
    some (true, true, true, true, true, true) := by decide
/-- V5 under FIRST_13. -/
theorem test_validate_v5 : field (exec .validate (busy .first13 bufferV5)) (fun t => t.sig.valid) = some false := by
  decide
/-- V5 under ACCESSED. -/
theorem test_chkLen_v5_accessed : field (exec .chkLen (busy .accessed bufferV5)) (fun t => t.sig.lenOk) = some true := by
  decide
/-- V16: rows of 32 bits have four bytes. -/
theorem test_chkLen_v16 : field (exec .chkLen (busy .allRows (baseBuffer 32 [0#8, 0x80#8, 0xD2#8, 0xF3#8])))
    (fun t => t.sig.lenOk) = some false := by decide
/-- V8: row 0 byte 0 = 0x01. -/
theorem test_chkPreamble_v8 : field (exec .chkPreamble (busy .first13
    { baseBuffer 36 frameA with bytes := (baseBuffer 36 frameA).bytes.write 0 0 0x01#8 }))
    (fun t => t.sig.preOk) = some false := by decide
/-- V10: byte 4 = 0x01 passes. -/
theorem test_chkNonzero_v10 : field (exec .chkNonzero (busy .first13 (baseBuffer 36 [0#8, 0x80#8, 0xD2#8, 0xF3#8, 1#8])))
    (fun t => t.sig.nzOk) = some true := by decide
/-- V9: byte 4 = 0x00 fails. -/
theorem test_chkNonzero_v9 : field (exec .chkNonzero (busy .first13 (baseBuffer 36 [0#8, 0x80#8, 0xD2#8, 0xF3#8, 0#8])))
    (fun t => t.sig.nzOk) = some false := by decide
/-- V11: 0x87 & 0x78 = 0. -/
theorem test_chkMask_v11 : field (exec .chkMask (busy .first13 (baseBuffer 36 [0#8, 0x80#8, 0xD2#8, 0x87#8, 0x70#8])))
    (fun t => t.sig.maskOk) = some false := by decide
/-- V12: 0x08 & 0x78 = 0x08. -/
theorem test_chkMask_v12 : field (exec .chkMask (busy .first13 (baseBuffer 36 [0#8, 0x80#8, 0xD2#8, 0x08#8, 0x70#8])))
    (fun t => t.sig.maskOk) = some true := by decide
/-- V13: 0x70 against 0x71. -/
theorem test_chkRepeat_v13 : field (exec .chkRepeat (busy .first13 bufferV13)) (fun t => t.sig.repOk) = some false := by
  decide

/-! ## The extractor -/

/-- Section 2.2, 0xFCE: t16 = 0xFCE0 and temp = -50. -/
theorem test_extTemp : field (exec .extTemp (busy .first13 (baseBuffer 36 frameP1)))
    (fun t => (t.sig.t16, t.sig.temp.toInt)) = some (0xFCE0#16, -50) := by decide
/-- Section 2.3: F4 10 gives 65 (P1). -/
theorem test_extHum : field (exec .extHum (busy .first13 (baseBuffer 36 frameP1))) (fun t => t.sig.hum) = some 65#8 := by
  decide
/-- P1: 0xA5 is 165. -/
theorem test_extRc : field (exec .extRc (busy .first13 (baseBuffer 36 frameP1))) (fun t => t.sig.rc) = some 165#8 := by
  decide
/-- P1: b1 = 0x3F gives channel 4. -/
theorem test_extCh : field (exec .extCh (busy .first13 (baseBuffer 36 frameP1))) (fun t => t.sig.ch) = some 4#3 := by
  decide
/-- L1-4b: b1 = 0x90 gives battery 1 and unknown1 0. -/
theorem test_extBatt : field (exec .extBatt (busy .first13 (baseBuffer 36 [0#8, 0x90#8, 0xD2#8, 0xF3#8, 0x70#8])))
    (fun t => t.sig.batt) = some 1#1 := by decide
/-- Section 2.4: b1 = 0x7F gives unknown1 1. -/
theorem test_extUnk1 : field (exec .extUnk1 (busy .first13 (baseBuffer 36 [0#8, 0x7F#8, 0xD2#8, 0xF3#8, 0x70#8])))
    (fun t => t.sig.unk1) = some 1#1 := by decide
/-- Section 2.4: b3 = 0x53 gives 5. -/
theorem test_extUnk2 : field (exec .extUnk2 (busy .first13 (baseBuffer 36 [0#8, 0x7F#8, 0xD2#8, 0x53#8, 0x70#8])))
    (fun t => t.sig.unk2) = some 5#4 := by decide
/-- R13: byte 2 of a 16-bit row does not exist. -/
theorem test_extTemp_short : fault (exec .extTemp (busy .first13 (baseBuffer 16 [0#8, 0x7F#8]))) =
    some (.bufReadOutOfBounds 1 2) := by decide

/-! ## The record and its rendering -/

/-- R120's example, with T = 7. -/
def recordA : Record where
  time := 7
  model := "Mebus/433"
  rc := 0#8
  channel := 1#3
  battery := 1#1
  temperature := 210#12
  humidity := 55#8
  unknown1 := 0#1
  unknown2 := 15#4

/-- R120's example. -/
theorem test_buildRecord : field (exec .buildRecord { busy .first13 BitBuffer.empty with
    sig := { Signals.cleared with ch := 1#3, batt := 1#1, temp := 210#12, hum := 55#8, unk2 := 15#4 } })
    (fun t => (t.sig.record, t.out.temp, t.emit)) = some (recordA, 210#12, 0#1) := by decide
/-- R123's examples. -/
theorem test_render_temperature : renderTenths 210 = "21.0" ∧ renderTenths (-50) = "-5.0" ∧ renderTenths (-5) = "-0.5" ∧
    renderTenths 0 = "0.0" ∧ renderTenths 2047 = "204.7" ∧ renderTenths (-2048) = "-204.8" := by decide
/-- The texts of R120's example. -/
theorem test_render_record : recordA.render.temperatureC = "21.0" ∧ recordA.render.humidity = "55" ∧
    recordA.render.battery = "OK" ∧ recordA.render.channel = "1" ∧ recordA.render.unknown2 = "15" ∧
    recordA.render.model = "Mebus/433" := by decide

/-! ## The transaction, reset and the host's duties -/

/-- L1-4a: the record of R140's example is handed off, in the completion step. -/
theorem test_decode_claims : field (step (busy .first13 (baseBuffer 36 frameA)))
    (fun t => (t.phase, t.done, t.ret, t.emit, t.sink)) = some (.idle, 1#1, 1#1, 1#1, [recordA]) := by decide
/-- V13: ret = 0 and no record. -/
theorem test_decode_rejects : field (step (busy .first13 bufferV13))
    (fun t => (t.phase, t.done, t.ret, t.emit, t.sink)) = some (.idle, 1#1, 0#1, 0#1, []) := by decide
/-- P5 under ACCESSED: a short row 7 is never read. -/
theorem test_decode_accessed : field (step (busy .accessed bufferV5)) (fun t => (t.ret, t.sink)) =
    some (1#1, [recordA]) := by decide
/-- Section 2.6: `rst` in the step of a completion wins. -/
theorem test_reset_wins : field (step { busy .first13 (baseBuffer 36 frameA) with script := [.reset] })
    (fun t => (t.phase, t.done, t.emit, t.sink)) = some (.idle, 0#1, 0#1, []) := by decide
/-- Section 2.6: a request while BUSY. -/
theorem test_request_while_busy : refusal (step { busy .first13 (baseBuffer 36 frameA) with script := [.request 7] }) =
    some .requestWhileBusy := by decide
/-- Section 2.6: row 12 byte 4 changed while BUSY. -/
theorem test_change_while_busy : refusal (step { busy .first13 (baseBuffer 36 frameA) with
    script := [.row 12 36 [0#8, 0x80#8, 0xD2#8, 0xF3#8, 0x71#8]] }) = some .inputChangedWhileBusy := by decide
/-- R43, R174: row 13 of 13 rows is not in the buffer, so its bytes may change while BUSY. -/
theorem test_change_outside_while_busy : field (step { busy .first13 { baseBuffer 36 frameA with
    rowBits := sparseWrite 0 (baseBuffer 36 frameA).rowBits 13 8 } with script := [.row 13 8 [0x55#8]] })
    (fun t => (t.done, t.ret)) = some (1#1, 1#1) := by decide
/-- R174: every `row_bits[r]` is held, row 13's too. -/
theorem test_length_outside_while_busy : refusal (step { busy .first13 (baseBuffer 36 frameA) with
    script := [.row 13 8 [0x55#8]] }) = some .inputChangedWhileBusy := by decide
/-- R70: `FILL 1..2` is two `ROW` lines. -/
theorem test_fill : fillLines 1 2 8 [1#8] = [.row 1 8 [1#8], .row 2 8 [1#8]] := by decide

/-! ## Witnesses: concrete states that meet the hypotheses of the statements -/

theorem field_eq_some {α : Type} {o : Host.Outcome State Fault Refusal} {f : State → α} {v : α} (h : field o f = some v) :
    ∃ t, o = .next t ∧ f t = v := by
  cases o with
  | next t => exact ⟨t, rfl, by simpa [field] using h⟩
  | fault r => simp [field] at h
  | refused r => simp [field] at h

/-- The base buffer with the frame of L1-4a. -/
def bufferA : BitBuffer := baseBuffer 36 frameA
/-- A BUSY state on it. -/
def busyA : State := busy .first13 bufferA

theorem bufferA_wf : bufferA.wf := by decide
theorem bufferA_fits : bufferA.fits (build .first13) := by decide

theorem witness_RstAbandonsAndReturnsToIdle : { busyA with script := [.reset] }.script = .reset :: [] := rfl

theorem witness_StepFollows_alone : busyA.phase = .busy ∧ busyA.script = [] := ⟨rfl, rfl⟩
theorem witness_StepFollows_request : ∃ d, (idle bufferA [.request 5]).drive = some d ∧ d.rst ≠ 1#1 ∧ d.phase = .idle ∧
    d.req = 1#1 := ⟨_, rfl, by decide, rfl, rfl⟩
theorem witness_StepFollows_idle : ∃ d, (idle bufferA [.rows 12]).drive = some d ∧ d.rst ≠ 1#1 ∧ d.phase = .idle ∧
    d.req ≠ 1#1 := ⟨_, rfl, by decide, rfl, by decide⟩
theorem witness_StepFollows_completion : ∃ d, busyA.drive = some d ∧ d.rst ≠ 1#1 ∧ d.phase = .busy ∧ d.req ≠ 1#1 ∧
    d.buffer.sameAs busyA.buffer ∧ d.ts = busyA.ts ∧ (decodeBuffer .first13 bufferA 7).isSome = true :=
  ⟨_, rfl, by decide, rfl, by decide, BitBuffer.sameAs_rfl _, rfl, by decide⟩
theorem witness_StepFollows_reject : ∃ d, (busy .first13 bufferV13).drive = some d ∧ d.rst ≠ 1#1 ∧ d.phase = .busy ∧
    d.req ≠ 1#1 ∧ d.buffer.sameAs bufferV13 ∧ d.ts = 7 ∧ decodeBuffer .first13 bufferV13 7 = none :=
  ⟨_, rfl, by decide, rfl, by decide, BitBuffer.sameAs_rfl _, rfl, by decide⟩
theorem witness_StepFollows_overlap : ∃ d, { busyA with script := [.request 7] }.drive = some d ∧ d.rst ≠ 1#1 ∧
    d.phase = .busy ∧ d.req = 1#1 := ⟨_, rfl, by decide, rfl, rfl⟩
theorem witness_StepFollows_changed : ∃ d, { busyA with script := [.rows 12] }.drive = some d ∧ d.rst ≠ 1#1 ∧
    d.phase = .busy ∧ d.req ≠ 1#1 ∧ ¬ d.buffer.sameAs busyA.buffer := ⟨_, rfl, by decide, rfl, by decide, by decide⟩
theorem witness_StepFollows_stamp : ∃ d, { busyA with script := [.stamp 8] }.drive = some d ∧ d.rst ≠ 1#1 ∧
    d.phase = .busy ∧ d.req ≠ 1#1 ∧ d.ts ≠ busyA.ts := ⟨_, rfl, by decide, rfl, by decide, by decide⟩
theorem witness_StepFollows_rst : ∃ d, { busyA with script := [.reset] }.drive = some d ∧ d.rst = 1#1 := ⟨_, rfl, rfl⟩

theorem witness_StepRuns_request : ∃ d, (idle bufferA [.request 5]).drive = some d ∧ d.rst ≠ 1#1 ∧
    decode d.req = .selects .decode ∧ Instr.decode.wf = true := ⟨_, rfl, by decide, rfl, rfl⟩
theorem witness_StepRuns_completion : ∃ d, busyA.drive = some d ∧ d.rst ≠ 1#1 ∧ decode d.req = .noRequest ∧
    d.phase = .busy ∧ d.buffer.sameAs busyA.buffer ∧ d.ts = busyA.ts :=
  ⟨_, rfl, by decide, rfl, rfl, BitBuffer.sameAs_rfl _, rfl⟩

theorem witness_RequestWhileBusy_step : { busyA with script := [.request 7] }.phase = .busy ∧
    { busyA with script := [.request 7] }.script = .request 7 :: [] := ⟨rfl, rfl⟩
theorem witness_RequestWhileBusy_exec : { busyA with req := 1#1 }.phase = .busy ∧ { busyA with req := 1#1 }.req = 1#1 :=
  ⟨rfl, rfl⟩

theorem witness_ChangedInput_rows : busyA.phase = .busy ∧ 12 ≤ busyA.build.maxRows ∧ 12 ≠ busyA.buffer.numRows := by decide
theorem witness_ChangedInput_length : busyA.phase = .busy ∧ busyA.buffer.wf ∧ 24 < busyA.build.maxRows ∧
    8 ≤ 8 * busyA.build.maxRowBytes ∧ [0#8].length = (8 + 7) / 8 ∧ 8 ≠ busyA.buffer.bitsOf 24 := by decide
theorem witness_ChangedInput_byte : busyA.phase = .busy ∧ busyA.buffer.wf ∧ 12 < busyA.build.maxRows ∧
    12 < busyA.buffer.numRows ∧
    36 ≤ 8 * busyA.build.maxRowBytes ∧ [0#8, 0x80#8, 0xD2#8, 0xF3#8, 0x71#8].length = (36 + 7) / 8 ∧
    [0#8, 0x80#8, 0xD2#8, 0xF3#8, 0x71#8][4] ≠ busyA.buffer.bytes.read 12 4 := by decide
theorem witness_ChangedInput_same_rows : 13 ≤ busyA.build.maxRows ∧ 13 = busyA.buffer.numRows := by decide
theorem witness_ChangedInput_same_row : 12 < busyA.build.maxRows ∧ 36 ≤ 8 * busyA.build.maxRowBytes ∧
    frameA.length = (36 + 7) / 8 ∧ 36 = busyA.buffer.bitsOf 12 ∧ ¬ busyA.buffer.numRows ≤ 12 ∧
    ∀ (b : Nat) (h : b < frameA.length), frameA[b] = busyA.buffer.bytes.read 12 b := by decide
/-- Row 13 with no bytes: just outside the buffer. -/
theorem witness_ChangedInput_outside : 13 < busyA.build.maxRows ∧ ([] : List Byte).length = (0 + 7) / 8 ∧
    0 = busyA.buffer.bitsOf 13 ∧ busyA.buffer.numRows ≤ 13 := by decide
theorem witness_ChangedInput_wait : { busyA with script := [.wait] }.script = .wait :: [] ∧ busyA.script = [] := ⟨rfl, rfl⟩
theorem witness_ChangedInput_stamp : busyA.phase = .busy ∧ (8 : TS) ≠ busyA.ts ∧ (7 : TS) = busyA.ts := by decide

theorem witness_InputsAreHeld_rows : busyA.phase = .busy ∧ ∃ d, { busyA with script := [.rows 12] }.drive = some d ∧
    d.rst ≠ 1#1 ∧ d.req ≠ 1#1 ∧ d.buffer.numRows ≠ busyA.buffer.numRows :=
  ⟨rfl, _, rfl, by decide, by decide, by decide⟩
theorem witness_InputsAreHeld_length : ∃ d, { busyA with script := [.row 13 8 [0#8]] }.drive = some d ∧
    d.rst ≠ 1#1 ∧ d.req ≠ 1#1 ∧ d.buffer.bitsOf 13 ≠ busyA.buffer.bitsOf 13 := ⟨_, rfl, by decide, by decide, by decide⟩
theorem witness_InputsAreHeld_byte : ∃ d,
    { busyA with script := [.row 12 36 [0#8, 0x80#8, 0xD2#8, 0xF3#8, 0x71#8]] }.drive = some d ∧ d.rst ≠ 1#1 ∧ d.req ≠ 1#1 ∧
    busyA.buffer.inBounds 12 4 ∧ d.buffer.bufRead 12 4 ≠ busyA.buffer.bufRead 12 4 :=
  ⟨_, rfl, by decide, by decide, by decide, by decide⟩
theorem witness_InputsAreHeld_stamp : ∃ d, { busyA with script := [.stamp 8] }.drive = some d ∧ d.rst ≠ 1#1 ∧
    d.req ≠ 1#1 ∧ d.ts ≠ busyA.ts := ⟨_, rfl, by decide, by decide, by decide⟩

theorem witness_EveryDecodeCompletesInTwoSteps : (idle bufferA (decodeLines 5 ++ [])).phase = .idle ∧
    (idle bufferA (decodeLines 5 ++ [])).script = decodeLines 5 ++ [] := ⟨rfl, rfl⟩

/-- A step that claims: for the statements about a next state. -/
theorem witness_step_claims : ∃ t, step busyA = .next t ∧ (t.done = 1#1 ∧ t.emit = 1#1) :=
  (field_eq_some (f := fun t => (t.done, t.emit)) (v := (1#1, 1#1)) (by decide)).imp
    (fun _ h => ⟨h.1, by simpa using h.2⟩)
/-- A step with no completion. -/
theorem witness_step_silent : ∃ t, step { busyA with script := [.reset] } = .next t ∧ t.done ≠ 1#1 :=
  (field_eq_some (f := fun t => t.done) (v := 0#1) (by decide)).imp (fun _ h => ⟨h.1, by simp [h.2]⟩)

/-- An accepted request, a completion and a reset. -/
theorem witness_SignalsEnd_request : ∃ t, step (idle bufferA [.request 5]) = .next t ∧ (idle bufferA []).phase ≠ t.phase :=
  (field_eq_some (f := fun t => t.phase) (v := .busy) (by decide)).imp (fun _ h => ⟨h.1, by rw [h.2]; decide⟩)
theorem witness_SignalsEnd_completion : ∃ t, step busyA = .next t ∧ t.done = 1#1 :=
  field_eq_some (f := fun t => t.done) (by decide)
theorem witness_SignalsEnd_reset : ∃ t, step { busyA with script := [.reset] } = .next t ∧ t.rst = 1#1 :=
  field_eq_some (f := fun t => t.rst) (by decide)

theorem witness_NoFault_busy : busyA.phase = .busy ∧ busyA.req ≠ 1#1 := by decide

/-- A state that meets the invariant and steps. -/
theorem witness_EveryStepKeepsTheStateInvariant : busyA.Inv ∧ ∃ t, step busyA = .next t :=
  ⟨⟨by decide, by decide, by decide, rfl, by decide, by decide, by decide, by decide⟩,
    witness_step_claims.imp (fun _ h => h.1)⟩

theorem witness_RowLength : bufferA.bitsOf 12 = 36 := by decide

theorem witness_PresentedRowIsReadBack : (idle bufferA [.row 24 40 frameA]).phase = .idle ∧
    (idle bufferA [.row 24 40 frameA]).buffer.wf ∧ 24 < (idle bufferA []).build.maxRows ∧
    40 ≤ 8 * (idle bufferA []).build.maxRowBytes ∧ frameA.length = (40 + 7) / 8 := by decide

theorem witness_Unpresentable_rows : (idle bufferA [.rows 26]).script = .rows 26 :: [] ∧
    (idle bufferA [.rows 26]).build.maxRows < 26 := by decide
theorem witness_Unpresentable_row : (idle bufferA [.row 25 8 [0#8]]).build.maxRows ≤ 25 := by decide
theorem witness_Unpresentable_bits : 8 * (idle bufferA [.row 1 41 []]).build.maxRowBytes < 41 := by decide
theorem witness_Unpresentable_bytes : ([] : List Byte).length ≠ (36 + 7) / 8 := by decide

/-- A next state of every operation but DECODE; DECODE's is `witness_exec_decode`. -/
theorem witness_exec_stages : ∀ i : Instr, i ≠ .decode → ∃ t, exec i busyA = .next t := by
  intro i hi
  have h : field (exec i busyA) (fun _ => ()) = some () := by cases i <;> first | exact absurd rfl hi | decide
  exact (field_eq_some h).imp (fun _ h => h.1)
theorem witness_exec_decode : ∃ t, exec .decode busyA = .next t :=
  (field_eq_some (f := fun _ => ()) (v := ()) (by decide)).imp (fun _ h => h.1)

theorem witness_RequestBit : decode 1#1 = .selects .decode := rfl

/-- Two different words that agree under every read mask. -/
theorem witness_EachFrameBit_masks : (0x5#40 : BitVec 40) ≠ 0xA#40 ∧
    ∀ i ∈ extractions, 0x5#40 &&& i.readMask = 0xA#40 &&& i.readMask := by decide
theorem witness_EachFrameBit_commute : Instr.extTemp ∈ extractions ∧ Instr.extCh ∈ extractions ∧
    1 < busyA.buffer.numRows ∧ 5 ≤ busyA.buffer.rowLen 1 := by decide

/-- Every address the block reads is in bounds: for the checks and the extractions. -/
theorem witness_in_bounds : ∀ a ∈ Instr.decode.reads, busyA.buffer.inBounds a.1 a.2 := by decide
/-- The base buffer passes the guard under each scope. -/
theorem witness_LengthGuardPutsEveryReadInBounds : lengthGuard .first13 bufferA = true ∧
    lengthGuard .accessed bufferA = true ∧ lengthGuard .allRows bufferA = true := by decide
/-- No address is in bounds of the empty buffer. -/
theorem witness_ByteChecksFailOutOfBounds : ∀ a ∈ Instr.decode.reads, ¬ BitBuffer.empty.inBounds a.1 a.2 := by decide
/-- Row 1 long enough and row 12 too short: the second case of CHK_REPEAT. -/
theorem witness_ByteChecksFail_repeat : { bufferA with numRows := 12 }.inBounds 1 4 ∧
    ¬ { bufferA with numRows := 12 }.inBounds 12 4 := by decide

theorem witness_ShortBuffer_rows : (busy .allRows { bufferA with numRows := 12 }).phase = .busy ∧
    (busy .allRows { bufferA with numRows := 12 }).req ≠ 1#1 ∧
    (busy .allRows { bufferA with numRows := 12 }).buffer.numRows < 13 := by decide
theorem witness_ShortBuffer_row : (busy .first13 bufferV5).phase = .busy ∧ (busy .first13 bufferV5).req ≠ 1#1 ∧
    (busy .first13 bufferV5).build.scope = .first13 ∧ 7 < 13 ∧ (busy .first13 bufferV5).buffer.rowLen 7 < 5 := by decide

/-- Another memory that agrees on every byte the block reads. -/
theorem witness_OperationsDepend : bufferA.bytes.write 5 0 0xDE#8 ≠ bufferA.bytes ∧
    ∀ a ∈ Instr.decode.reads, (bufferA.bytes.write 5 0 0xDE#8).read a.1 a.2 = busyA.buffer.bytes.read a.1 a.2 := by decide
theorem witness_OperationsDepend_guard : lengthGuard (busy .first13 bufferV5).build.scope
    (busy .first13 bufferV5).buffer = false := by decide

/-- A row too short for byte 2: the stopping case of an extraction. -/
theorem witness_ExtractionStops : Instr.extTemp ∈ extractions ∧
    ¬ (baseBuffer 16 [0#8, 0x7F#8]).inBounds 1 2 := by decide
/-- The extractions' row: both hypotheses of the frame layout statement. -/
theorem witness_ExtractionsFollowTheFrameLayout : 1 < busyA.buffer.numRows ∧ 5 ≤ busyA.buffer.rowLen 1 := by decide
theorem witness_TemperatureIsSignExtended : ∃ t, exec .extTemp (busy .first13 (baseBuffer 36 frameP1)) = .next t ∧
    t.sig.temp.toInt = -50 := field_eq_some (f := fun t => t.sig.temp.toInt) (by decide)

/-- Two records with the same temperature and other fields different. -/
theorem witness_RenderedTemperature : recordA ≠ { recordA with rc := 1#8 } ∧
    recordA.render.temperatureC = { recordA with rc := 1#8 }.render.temperatureC := by decide
theorem witness_BatteryTexts : recordA.battery = 1#1 ∧ { recordA with battery := 0#1 }.battery = 0#1 := by decide

theorem witness_DecodeIs_request : { idle bufferA [] with req := 1#1 }.phase = .idle ∧
    { idle bufferA [] with req := 1#1 }.req = 1#1 := ⟨rfl, rfl⟩
/-- Two BUSY states that differ in what they have handed off and agree on the inputs. -/
theorem witness_OutcomeIsAFunctionOfTheInputs : busyA ≠ { busyA with sink := [recordA] } ∧ busyA.phase = .busy ∧
    { busyA with sink := [recordA] }.phase = .busy ∧ busyA.req ≠ 1#1 ∧ { busyA with sink := [recordA] }.req ≠ 1#1 ∧
    busyA.buffer = { busyA with sink := [recordA] }.buffer ∧ busyA.ts = { busyA with sink := [recordA] }.ts ∧
    busyA.build.scope = { busyA with sink := [recordA] }.build.scope := by decide
theorem witness_DecodingTwice : (idle bufferA (decodeLines 5 ++ decodeLines 5)).phase = .idle ∧
    (idle bufferA (decodeLines 5 ++ decodeLines 5)).script = decodeLines 5 ++ decodeLines 5 := ⟨rfl, rfl⟩

end Sys2Proof.Tests
end

section
/-! SUPPORT. The scope of the block (00_scope.md): what an extraction run by itself needs (R13), and that the build is
fixed (R9). -/

namespace Sys2Proof.Machine

open Sys2Proof

/-! ## An extraction run by itself (R13, R43) -/

/-- An outcome that needs the bytes at `addrs`: it completes with all of them in bounds, or it stops on a byte of the frame
row among them that is not. -/
def StopsOnlyOutOfBounds (s : State) (addrs : List (Nat × Nat)) (o : Host.Outcome State Fault Refusal) : Prop :=
  ((∀ a ∈ addrs, s.buffer.inBounds a.1 a.2) ∧ ∃ t, o = .next t) ∨
  (∃ k, (1, k) ∈ addrs ∧ ¬ s.buffer.inBounds 1 k ∧ o = .fault (.bufReadOutOfBounds 1 k))

namespace StopsOnlyOutOfBounds

variable {s : State} {addrs : List (Nat × Nat)} {k : Nat} {f : Byte → Host.Outcome State Fault Refusal}

theorem next (t : State) : StopsOnlyOutOfBounds s [] (.next t) :=
  .inl ⟨List.forall_mem_nil _, t, rfl⟩

/-- Reading one more byte first adds its address to those needed. -/
theorem readThen (h : ∀ b, StopsOnlyOutOfBounds s addrs (f b)) :
    StopsOnlyOutOfBounds s ((1, k) :: addrs) (withFrameByte s k f) := by
  rw [StopsOnlyOutOfBounds, withFrameByte_eq]
  by_cases hk : s.buffer.inBounds 1 k
  · rw [if_pos hk]
    obtain ⟨hall, hnext⟩ | ⟨j, hj, hout, hfault⟩ := h (s.buffer.bytes.read 1 k)
    · exact .inl ⟨List.forall_mem_cons.2 ⟨hk, hall⟩, hnext⟩
    · exact .inr ⟨j, List.mem_cons_of_mem _ hj, hout, hfault⟩
  · rw [if_neg hk]
    exact .inr ⟨k, List.mem_cons_self, hk, rfl⟩

end StopsOnlyOutOfBounds

/-- Settles O43: each extraction reads one or two bytes of the frame row, in the order the opcode table lists them. -/
theorem extractionStopsOnlyOutOfBounds : Obligations.ExtractionStopsOnlyOutOfBounds := by
  intro i s hi
  change StopsOnlyOutOfBounds s i.reads (exec i s)
  cases i with
  | extTemp | extHum => exact .readThen fun _ => .readThen fun _ => .next _
  | extRc | extCh | extBatt | extUnk1 | extUnk2 => exact .readThen fun _ => .next _
  | decode | validate | chkLen | chkPreamble | chkNonzero | chkMask | chkRepeat | buildRecord =>
    exact absurd hi (by decide)

/-! ## The build (R9, R24) -/

/-- Settles O11: the host drives only ports, and none of the outcomes of a step (reset, acceptance, silence, claim, reject)
touches the build. -/
theorem noStepChangesTheBuild : Obligations.NoStepChangesTheBuild := by
  intro s t h
  obtain ⟨d, hd, hcases⟩ := step_cases h
  obtain ⟨-, -, -, -, -, -, hbuild, -⟩ := drive_unchanged hd
  rcases hcases with ⟨-, rfl⟩ | ⟨-, -, -, rfl⟩ | ⟨-, -, -, rfl⟩ | ⟨-, -, -, -, -, ⟨-, rfl⟩ | ⟨-, rfl⟩⟩ <;>
    simpa using hbuild

end Sys2Proof.Machine
end

section
/-! SUPPORT. The state of the block (10_state.md): the invariant at reset and over a step, the frame of the stages, and the
outcome of a transaction as a function of its inputs. -/

namespace Sys2Proof.Machine

open Sys2Proof

/-! ## The invariant (R20, R21, R27, R29, R31, R41) -/

/-- Settles O1: `State.reset` sets these four fields. -/
theorem resetIsIdleWithOutputsLow : Obligations.ResetIsIdleWithOutputsLow :=
  ⟨rfl, rfl, rfl, rfl⟩

/-- Settles O12: no buffer is presented, no signal is held and nothing has been handed off. -/
theorem resetMeetsTheStateInvariant : Obligations.ResetMeetsTheStateInvariant where
  build_wf := ⟨Nat.le_add_left _ _, Nat.le_add_left _ _⟩
  buffer_wf := by decide
  buffer_fits := ⟨Nat.zero_le _, List.forall_mem_nil _⟩
  sig_cleared := rfl
  busy_silent _ := ⟨rfl, rfl⟩
  done_emit _ := rfl
  emit_record h := absurd h (by decide)
  sink_legal := List.forall_mem_nil _

/-- What a claim hands off is legal: the tag is constant and the channel is one-based on two bits (R105, R120). -/
theorem claimedRecord_legal (s : State) : (claimedRecord s).legal := by
  have hch := chField_toNat (s.buffer.bytes.read 1 1)
  refine ⟨rfl, ?_, ?_⟩ <;> simp only [claimedRecord, assemble, Signals.extracted] <;> omega

namespace State.Inv

variable {s d : State}

/-- The host drives only input ports and the script; the invariant speaks of the buffer alone among these. -/
theorem drive (h : s.Inv) (hd : s.drive = some d) : d.Inv := by
  obtain ⟨hphase, hdone, hret, hemit, hout, hsig, hbuild, -, hsink, -⟩ := drive_unchanged hd
  obtain ⟨hwf, hfits⟩ := drive_buffer hd h.buffer_wf h.buffer_fits
  exact {
    build_wf := hbuild ▸ h.build_wf
    buffer_wf := hwf
    buffer_fits := hfits
    sig_cleared := hsig.trans h.sig_cleared
    busy_silent := by rw [hphase, hdone, hemit]; exact h.busy_silent
    done_emit := by rw [hdone, hemit, hret]; exact h.done_emit
    emit_record := by rw [hemit, hdone, hsink, hout]; exact h.emit_record
    sink_legal := hsink ▸ h.sink_legal }

theorem silent (h : s.Inv) : s.silent.Inv :=
  { h with
    busy_silent := fun _ => ⟨rfl, rfl⟩
    done_emit := fun hdone => absurd hdone (by decide : (0#1 : Bit) ≠ 1#1)
    emit_record := fun hemit => absurd hemit (by decide : (0#1 : Bit) ≠ 1#1) }

theorem accept (h : s.Inv) : s.accept.Inv :=
  { h.silent with
    sig_cleared := rfl
    busy_silent := fun _ => ⟨rfl, rfl⟩ }

theorem applyReset (h : s.Inv) : s.applyReset.Inv :=
  { h.silent with
    sig_cleared := rfl
    busy_silent := fun _ => ⟨rfl, rfl⟩
    done_emit := fun _ => rfl }

theorem reject (h : s.Inv) : s.reject.Inv :=
  { h with
    sig_cleared := rfl
    busy_silent := fun hbusy => nomatch hbusy
    done_emit := fun _ => rfl
    emit_record := fun hemit => absurd hemit (by decide : (0#1 : Bit) ≠ 1#1) }

/-- A claim hands off its record, on the ports as in the sink. -/
theorem claim (h : s.Inv) {r : Record} (hr : r.legal) : ((s.handoff r).returnWith 1#1).Inv :=
  { h with
    sig_cleared := rfl
    busy_silent := fun hbusy => nomatch hbusy
    done_emit := fun _ => rfl
    emit_record := fun _ => ⟨rfl, r, List.getLast?_concat, rfl⟩
    sink_legal := List.forall_mem_append.2 ⟨h.sink_legal, List.forall_mem_singleton.2 hr⟩ }

end State.Inv

/-- Settles O13: the host's action keeps the invariant, and so does each outcome of a step (reset, acceptance, silence,
claim, reject). -/
theorem everyStepKeepsTheStateInvariant : Obligations.EveryStepKeepsTheStateInvariant := by
  intro s t hs h
  obtain ⟨d, hd, hcases⟩ := step_cases h
  have hinv : d.Inv := hs.drive hd
  rcases hcases with ⟨-, rfl⟩ | ⟨-, -, -, rfl⟩ | ⟨-, -, -, rfl⟩ | ⟨-, -, -, -, -, ⟨-, rfl⟩ | ⟨-, rfl⟩⟩
  · exact hinv.applyReset
  · exact hinv.accept
  · exact hinv.silent
  · exact hinv.claim (claimedRecord_legal d)
  · exact hinv.reject

/-! ## The transaction-local signals (R22, R29) -/

/-- Settles O53: of the outcomes of a step, only an IDLE block's silence keeps the signals, and it is none of the three
named: the phase stays, `done` is 0 and `rst` is not 1. -/
theorem signalsEndWithTheTransaction : Obligations.SignalsEndWithTheTransaction := by
  intro s t h hend
  obtain ⟨d, hd, hcases⟩ := step_cases h
  obtain ⟨hphase, -⟩ := drive_unchanged hd
  rcases hcases with ⟨-, rfl⟩ | ⟨-, -, -, rfl⟩ | ⟨hrst, -, -, rfl⟩ | ⟨-, -, -, -, -, ⟨-, rfl⟩ | ⟨-, rfl⟩⟩
  case inr.inr.inl => simp [hphase, hrst] at hend
  all_goals rfl

/-- An outcome that, where it gives a next state, changes nothing of `s` but the transaction-local signals. -/
def ChangesOnlySignals (s : State) (o : Host.Outcome State Fault Refusal) : Prop :=
  ∀ t, o = .next t → ∃ f, t = s.onSig f

namespace ChangesOnlySignals

variable {s : State}

theorem onSig (f : Signals → Signals) : ChangesOnlySignals s (.next (s.onSig f)) :=
  fun _ h => ⟨f, (Host.Outcome.next.inj h).symm⟩

/-- Reading a frame byte first changes nothing. -/
theorem readThen {k : Nat} {f : Byte → Host.Outcome State Fault Refusal} (h : ∀ b, ChangesOnlySignals s (f b)) :
    ChangesOnlySignals s (withFrameByte s k f) := by
  rw [withFrameByte_eq]
  split_ifs
  · exact h _
  · exact nofun

theorem validate : ChangesOnlySignals s (execValidate s) := by
  rw [execValidate_eq]
  split_ifs <;> exact onSig _

end ChangesOnlySignals

/-- The checks and VALIDATE set signals of `s`; the extractions do so after reading one or two frame bytes. -/
theorem exec_changesOnlySignals {i : Instr} (s : State) (hd : i ≠ .decode) (hb : i ≠ .buildRecord) :
    ChangesOnlySignals s (exec i s) := by
  cases i with
  | validate => exact .validate
  | chkLen | chkPreamble | chkNonzero | chkMask | chkRepeat => exact .onSig _
  | extTemp | extHum => exact .readThen fun _ => .readThen fun _ => .onSig _
  | extRc | extCh | extBatt | extUnk1 | extUnk2 => exact .readThen fun _ => .onSig _
  | decode => exact absurd rfl hd
  | buildRecord => exact absurd rfl hb

/-- Settles O18: BUILD_RECORD sets the record and the ports; every other stage changes only signals. -/
theorem stagesChangeOnlySignals : Obligations.StagesChangeOnlySignals := by
  intro i s t hd h
  by_cases hb : i = .buildRecord
  · subst hb
    cases h
    exact ⟨rfl, fun hne => absurd rfl hne⟩
  · obtain ⟨f, rfl⟩ := exec_changesOnlySignals s hd hb t h
    exact ⟨rfl, fun _ => rfl⟩

/-! ## The outcome of a transaction (R20, R143) -/

/-- The state after a completion with the outcome `Decode(buf, ts)`: a claim of the record, or a reject. -/
def State.finish (s : State) : Option Record → State
  | some r => (s.handoff r).returnWith 1#1
  | none => s.reject

/-- DECODE on a BUSY block with no further request completes with the outcome of R143's function. -/
theorem exec_decode_of_busy {s : State} (hp : s.phase = .busy) (hq : s.req ≠ 1#1) :
    exec .decode s = .next (s.finish (decodeBuffer s.build.scope s.buffer s.ts)) := by
  have hc : exec .decode s = complete s := by simp only [exec, execDecode, hp, if_neg hq]
  rw [hc, complete_eq, verdict_eq_accepts, claimedRecord_eq_frameRecord, decodeBuffer]
  split_ifs <;> rfl

/-- Settles O50: both completions have the outcome of R143's function, which is the same for both, and what they hand off is
its record, if there is one. -/
theorem outcomeIsAFunctionOfTheInputs : Obligations.OutcomeIsAFunctionOfTheInputs := by
  intro s u hs hu hsq huq hbuf hts hscope
  refine ⟨_, _, (decodeBuffer s.build.scope s.buffer s.ts).toList, exec_decode_of_busy hs hsq,
    exec_decode_of_busy hu huq, ?_⟩
  rw [← hbuf, ← hts, ← hscope]
  cases decodeBuffer s.build.scope s.buffer s.ts with
  | some r => exact ⟨rfl, rfl, rfl, fun _ => rfl, rfl, rfl⟩
  | none => simp [State.finish]

end Sys2Proof.Machine
end

section
/-! SUPPORT. The buffer at the ports (20_memory.md): row lengths, the host's buffer lines, and which bytes the operations
depend on. -/

namespace Sys2Proof.Machine

open Sys2Proof

/-! ## Row lengths (R42) -/

/-- Settles O14: `rowLen` is this quotient; the bounds are arithmetic. -/
theorem rowLengthRoundsUp : Obligations.RowLengthRoundsUp := by
  intro buf r
  have h : buf.rowLen r = (buf.bitsOf r + 7) / 8 := rfl
  exact ⟨h, by omega, by omega, by omega⟩

/-! ## The host's buffer lines (R26, R41, R70) -/

/-- The buffer with a row presented: its length, and its bytes from byte 0 on. -/
def BitBuffer.withRow (buf : BitBuffer) (r bits : Nat) (bytes : List Byte) : BitBuffer :=
  { buf with rowBits := sparseWrite 0 buf.rowBits r bits, bytes := buf.bytes.writeRow r 0 bytes }

namespace BitBuffer

variable {buf : BitBuffer} (hw : buf.wf) (r bits : Nat) (bytes : List Byte)

include hw

theorem withRow_bitsOf (r' : Nat) :
    (buf.withRow r bits bytes).bitsOf r' = if r' = r then bits else buf.bitsOf r' :=
  sparseRead_write hw.2.1

theorem withRow_read_same {b : Nat} (hb : b < bytes.length) : (buf.withRow r bits bytes).bytes.read r b = bytes[b] := by
  rw [withRow, Memory.read_writeRow hw.1, dif_pos ⟨rfl, Nat.zero_le b, by omega⟩]
  rfl

theorem withRow_read_other {r' : Nat} (hr : r' ≠ r) (b : Nat) :
    (buf.withRow r bits bytes).bytes.read r' b = buf.bytes.read r' b := by
  rw [withRow, Memory.read_writeRow hw.1, dif_neg (fun h => hr h.1)]

end BitBuffer

section HostLines

variable {s : State} {rest : List HostLine}

/-- The host's `ROWS` line, presented or not. -/
theorem drive_rows {n : Nat} (hs : s.script = .rows n :: rest) :
    s.drive = if n ≤ s.build.maxRows then
        some { s with req := 0#1, rst := 0#1, script := rest, buffer := { s.buffer with numRows := n } }
      else none := by
  rw [State.drive, hs]
  rfl

/-- The host's `ROW` line, presented or not. -/
theorem drive_row {r bits : Nat} {bytes : List Byte} (hs : s.script = .row r bits bytes :: rest) :
    s.drive = if r < s.build.maxRows ∧ bits ≤ 8 * s.build.maxRowBytes ∧ bytes.length = (bits + 7) / 8 then
        some { s with req := 0#1, rst := 0#1, script := rest, buffer := s.buffer.withRow r bits bytes }
      else none := by
  rw [State.drive, hs]
  rfl

theorem step_of_drive_eq_none (h : s.drive = none) : step s = .refused .notPresentable := by
  rw [step, controlStep, h]

/-- An IDLE block whose host neither resets nor requests stays IDLE, with no output. -/
theorem step_of_idle {d : State} (hd : s.drive = some d) (hr : d.rst ≠ 1#1) (hp : d.phase = .idle) (hq : d.req ≠ 1#1) :
    step s = .next d.silent := by
  simp only [step, controlStep, hd, hr, hp, hq, decode, if_false]

end HostLines

/-- Settles O16: the port bounds are the conditions under which `ROWS` and `ROW` lines drive the ports. -/
theorem unpresentableLineIsRefused : Obligations.UnpresentableLineIsRefused := by
  refine ⟨fun s n rest hs hn => ?_, fun s r bits bytes rest hs hbad => ?_⟩
  · exact step_of_drive_eq_none ((drive_rows hs).trans (if_neg (by omega)))
  · exact step_of_drive_eq_none ((drive_row hs).trans (if_neg (by omega)))

/-- Settles O15: the step presents the row and is silent; the row read back is the laws of `withRow`. -/
theorem presentedRowIsReadBack : Obligations.PresentedRowIsReadBack := by
  intro s r bits bytes rest hp hw hs hr hbits hlen
  have hd := (drive_row hs).trans (if_pos ⟨hr, hbits, hlen⟩)
  refine ⟨_, step_of_idle hd (by simp) hp (by simp), hp, rfl, ?_, ?_, ?_⟩
  · exact (BitBuffer.withRow_bitsOf hw r bits bytes r).trans (if_pos rfl)
  · exact fun b hb => BitBuffer.withRow_read_same hw r bits bytes hb
  · exact fun r' b' hne => ⟨(BitBuffer.withRow_bitsOf hw r bits bytes r').trans (if_neg hne),
      BitBuffer.withRow_read_other hw r bits bytes hne b'⟩

/-! ## No operation has a write primitive (R44) -/

/-- DECODE by request and phase: an overlapping request, an acceptance, a completion, or silence. -/
theorem exec_decode_eq (s : State) :
    exec .decode s =
      if s.req = 1#1 then if s.phase = .busy then .refused .requestWhileBusy else .next s.accept
      else if s.phase = .busy then .next (s.finish (decodeBuffer s.build.scope s.buffer s.ts))
      else .next s.silent := by
  cases hp : s.phase with
  | idle => simp [exec, execDecode, hp]
  | busy =>
    by_cases hq : s.req = 1#1
    · simp [exec, execDecode, hp, hq]
    · simp [exec_decode_of_busy hp hq, hq]

/-- The two states have the same input ports, build and pending host actions. -/
def State.SameInputs (t s : State) : Prop :=
  t.buffer = s.buffer ∧ t.ts = s.ts ∧ t.req = s.req ∧ t.rst = s.rst ∧ t.build = s.build ∧ t.script = s.script

theorem State.accept_sameInputs (s : State) : s.accept.SameInputs s := ⟨rfl, rfl, rfl, rfl, rfl, rfl⟩
theorem State.silent_sameInputs (s : State) : s.silent.SameInputs s := ⟨rfl, rfl, rfl, rfl, rfl, rfl⟩
theorem State.finish_sameInputs (s : State) (o : Option Record) : (s.finish o).SameInputs s := by
  cases o <;> exact ⟨rfl, rfl, rfl, rfl, rfl, rfl⟩

theorem exec_sameInputs {i : Instr} {s t : State} (h : exec i s = .next t) : t.SameInputs s := by
  by_cases hi : i = .decode
  · subst hi
    rw [exec_decode_eq] at h
    split_ifs at h <;> cases h
    · exact s.accept_sameInputs
    · exact s.finish_sameInputs _
    · exact s.silent_sameInputs
  · rw [(stagesChangeOnlySignals i s t hi h).1]
    exact ⟨rfl, rfl, rfl, rfl, rfl, rfl⟩

/-- Settles O17: an equal buffer reads equally. -/
theorem noOperationWritesTheBuffer : Obligations.NoOperationWritesTheBuffer := by
  intro i s t h
  obtain ⟨hbuf, hts, hreq, hrst, hbuild, hscript⟩ := exec_sameInputs h
  exact ⟨hbuf, hts, hreq, hrst, hbuild, hscript, fun r b => by rw [hbuf]⟩

/-! ## The bytes an operation depends on (R43, R51, R86) -/

/-- The memory agrees with the buffer of `s` on the addresses. -/
def Memory.AgreesOn (m : Memory) (s : State) (addrs : List (Nat × Nat)) : Prop :=
  ∀ a ∈ addrs, m.read a.1 a.2 = s.buffer.bytes.read a.1 a.2

/-- With another memory behind the read port, the operation does the same. -/
def UnaffectedBy (m : Memory) (s : State) (op : State → Host.Outcome State Fault Refusal) : Prop :=
  op (s.withBytes m) = mapNext (fun t => t.withBytes m) (op s)

/-- The operation depends on no byte but those at the addresses. -/
def DependsOnlyOn (addrs : List (Nat × Nat)) (op : State → Host.Outcome State Fault Refusal) : Prop :=
  ∀ s m, m.AgreesOn s addrs → UnaffectedBy m s op

section OtherBytes

variable {s : State} {m : Memory}

theorem State.withBytes_bufRead {r b : Nat} (h : m.read r b = s.buffer.bytes.read r b) :
    (s.withBytes m).buffer.bufRead r b = s.buffer.bufRead r b :=
  if_congr Iff.rfl (congrArg some h) rfl

theorem State.withBytes_lengthGuard (scope : Config.LenGuardScope) :
    lengthGuard scope (s.withBytes m).buffer = lengthGuard scope s.buffer :=
  lengthGuard_congr rfl rfl

theorem State.withBytes_accept : (s.withBytes m).accept = s.accept.withBytes m := rfl
theorem State.withBytes_silent : (s.withBytes m).silent = s.silent.withBytes m := rfl
theorem State.withBytes_finish (o : Option Record) : (s.withBytes m).finish o = (s.finish o).withBytes m := by
  cases o <;> rfl

theorem byteCheck_congr {buf old : BitBuffer} {r b : Nat} {p : Byte → Bool} (h : buf.bufRead r b = old.bufRead r b) :
    byteCheck buf r b p = byteCheck old r b p := by
  simp only [byteCheck, h]

/-! ### The checks -/

theorem preambleZero_withBytes (h : m.AgreesOn s Instr.chkPreamble.reads) :
    preambleZero (s.withBytes m).buffer = preambleZero s.buffer :=
  byteCheck_congr (State.withBytes_bufRead (h (0, 0) (by decide)))

theorem byte4Nonzero_withBytes (h : m.AgreesOn s Instr.chkNonzero.reads) :
    byte4Nonzero (s.withBytes m).buffer = byte4Nonzero s.buffer :=
  byteCheck_congr (State.withBytes_bufRead (h (1, 4) (by decide)))

theorem maskBitsSet_withBytes (h : m.AgreesOn s Instr.chkMask.reads) :
    maskBitsSet (s.withBytes m).buffer = maskBitsSet s.buffer :=
  byteCheck_congr (State.withBytes_bufRead (h (1, 3) (by decide)))

theorem byte4Repeats_withBytes (h : m.AgreesOn s Instr.chkRepeat.reads) :
    byte4Repeats (s.withBytes m).buffer = byte4Repeats s.buffer := by
  have h12 : ∀ p, byteCheck (s.withBytes m).buffer 12 4 p = byteCheck s.buffer 12 4 p := fun _ =>
    byteCheck_congr (State.withBytes_bufRead (h (12, 4) (by decide)))
  simp only [byte4Repeats, h12]
  exact byteCheck_congr (State.withBytes_bufRead (h (1, 4) (by decide)))

/-! ### VALIDATE and DECODE -/

theorem Memory.AgreesOn.mono {addrs addrs' : List (Nat × Nat)} (h : m.AgreesOn s addrs) (hsub : addrs' ⊆ addrs) :
    m.AgreesOn s addrs' :=
  fun a ha => h a (hsub ha)

/-- VALIDATE reads what its four byte checks read. -/
theorem execValidate_unaffectedBy (h : m.AgreesOn s Instr.validate.reads) : UnaffectedBy m s execValidate := by
  simp only [UnaffectedBy, execValidate_eq, State.withBytes_build, State.withBytes_lengthGuard,
    preambleZero_withBytes (h.mono (by decide)), byte4Nonzero_withBytes (h.mono (by decide)),
    maskBitsSet_withBytes (h.mono (by decide)), byte4Repeats_withBytes (h.mono (by decide))]
  split_ifs <;> rfl

/-- Where the length guard fails, VALIDATE runs no byte check. -/
theorem execValidate_unaffectedBy_of_guard_failed (hg : lengthGuard s.build.scope s.buffer = false) :
    UnaffectedBy m s execValidate := by
  simp only [UnaffectedBy, execValidate_eq, State.withBytes_build, State.withBytes_lengthGuard, hg]
  rfl

theorem decodeBuffer_withBytes (h : m.AgreesOn s Instr.decode.reads) (scope : Config.LenGuardScope) (t : TS) :
    decodeBuffer scope (s.withBytes m).buffer t = decodeBuffer scope s.buffer t := by
  have hbyte : ∀ a ∈ Instr.decode.reads, (s.withBytes m).buffer.byteAt a.1 a.2 = s.buffer.byteAt a.1 a.2 := h
  simp only [Instr.reads, List.forall_mem_cons] at hbyte
  obtain ⟨h00, h10, h11, h12, h13, h14, h124, -⟩ := hbyte
  simp [decodeBuffer, accepts, BitBuffer.frame, State.withBytes_lengthGuard, h00, h10, h11, h12, h13, h14, h124]

theorem decodeBuffer_of_guard_failed {scope : Config.LenGuardScope} {buf : BitBuffer}
    (hg : lengthGuard scope buf = false) (t : TS) : decodeBuffer scope buf t = none := by
  simp [decodeBuffer, accepts, hg]

/-- DECODE sees the bytes through the outcome function of R143 alone: its phase, its request and what it does with an outcome
do not look at the memory. -/
theorem exec_decode_unaffectedBy (h : decodeBuffer s.build.scope (s.withBytes m).buffer s.ts =
    decodeBuffer s.build.scope s.buffer s.ts) : UnaffectedBy m s (exec .decode) := by
  by_cases hq : s.req = 1#1 <;> by_cases hp : s.phase = .busy <;>
    simp [UnaffectedBy, exec_decode_eq, hq, hp, h, State.withBytes_accept, State.withBytes_silent, State.withBytes_finish]

end OtherBytes

namespace DependsOnlyOn

variable {addrs : List (Nat × Nat)} {k : Nat}

/-- Setting signals from what depends only on the bytes at the addresses. -/
theorem onSig {f : State → Signals → Signals} (h : ∀ s m, m.AgreesOn s addrs → f (s.withBytes m) = f s) :
    DependsOnlyOn addrs (fun s => .next (s.onSig (f s))) := by
  intro s m hm
  simp only [UnaffectedBy, h s m hm]
  rfl

theorem setSig (f : Signals → Signals) : DependsOnlyOn [] (fun s => .next (s.onSig f)) :=
  onSig fun _ _ _ => rfl

/-- Reading one more frame byte first adds its address. -/
theorem readThen {f : State → Byte → Host.Outcome State Fault Refusal} (h : ∀ b, DependsOnlyOn addrs (f · b)) :
    DependsOnlyOn ((1, k) :: addrs) (fun s => withFrameByte s k (f s)) := by
  intro s m hm
  obtain ⟨hk, hrest⟩ := List.forall_mem_cons.1 hm
  simp only [UnaffectedBy, withFrameByte, State.withBytes_bufRead hk]
  cases s.buffer.bufRead Config.frameRow k with
  | some v => exact h v s m hrest
  | none => rfl

end DependsOnlyOn

/-- Each operation depends only on the bytes the address map gives it (R51). -/
theorem exec_dependsOnlyOn_reads (i : Instr) : DependsOnlyOn i.reads (exec i) := by
  cases i with
  | decode => exact fun _ _ h => exec_decode_unaffectedBy (decodeBuffer_withBytes h _ _)
  | validate => exact fun _ _ h => execValidate_unaffectedBy h
  | chkLen | buildRecord => exact fun _ _ _ => rfl
  | chkPreamble => exact .onSig fun _ _ h => by rw [preambleZero_withBytes h]
  | chkNonzero => exact .onSig fun _ _ h => by rw [byte4Nonzero_withBytes h]
  | chkMask => exact .onSig fun _ _ h => by rw [maskBitsSet_withBytes h]
  | chkRepeat => exact .onSig fun _ _ h => by rw [byte4Repeats_withBytes h]
  | extTemp | extHum => exact .readThen fun _ => .readThen fun _ => .setSig _
  | extRc | extCh | extBatt | extUnk1 | extUnk2 => exact .readThen fun _ => .setSig _

/-- Settles O33: by the address map of each operation; and where the length guard fails, no byte check is run and the outcome
function is none. -/
theorem operationsDependOnlyOnTheirBytes : Obligations.OperationsDependOnlyOnTheirBytes := by
  refine ⟨exec_dependsOnlyOn_reads, ?_⟩
  rintro i s m (rfl | rfl) hg
  · exact execValidate_unaffectedBy_of_guard_failed hg
  · have hg' : lengthGuard s.build.scope (s.withBytes m).buffer = false := (State.withBytes_lengthGuard _).trans hg
    exact exec_decode_unaffectedBy
      ((decodeBuffer_of_guard_failed hg' _).trans (decodeBuffer_of_guard_failed hg _).symm)

end Sys2Proof.Machine
end

section
/-! SUPPORT. The encodings (30_encoding.md): the round trips of the frame word and of the request bit, the extractions against
the layout of the frame, and the step that a request word selects. -/

namespace Sys2Proof.Machine

open Sys2Proof

/-! ## The frame word (R61, R67) -/

/-- To read a field, pass over the fields appended below it; the field itself is then the low end of what is left. -/
@[simp] theorem decodeFrame_encodeFrame (f : FrameFields) : decodeFrame (encodeFrame f) = f := by
  simp (disch := decide) only [decodeFrame, encodeFrame, BitVec.extractLsb'_append_eq_of_le, Nat.reduceSub,
    BitVec.extractLsb'_append_eq_right, BitVec.extractLsb'_eq_self]

/-- Each slice appended to the one next below it is the slice that spans both, from the top of the word down to the whole
word. -/
@[simp] theorem encodeFrame_decodeFrame (w : BitVec 40) : encodeFrame (decodeFrame w) = w := by
  simp (disch := decide) only [encodeFrame, decodeFrame, BitVec.extractLsb'_append_extractLsb'_eq_extractLsb',
    BitVec.extractLsb'_eq_self]

/-- Settles O21. -/
theorem frameDecodesWhatWasEncoded : Obligations.FrameDecodesWhatWasEncoded :=
  decodeFrame_encodeFrame

/-- Settles O22. -/
theorem frameEncodesWhatWasDecoded : Obligations.FrameEncodesWhatWasDecoded :=
  encodeFrame_decodeFrame

/-! ## The extractions against the layout (R63) -/

theorem andThen_assoc (o : Host.Outcome State Fault Refusal) (f g : State → Host.Outcome State Fault Refusal) :
    andThen (andThen o f) g = andThen o fun s => andThen (f s) g := by
  cases o <;> rfl

/-- Running the seven extractions of the table one after another is the extraction of R140. -/
theorem foldl_extractions_eq_extractFields (s : State) :
    extractions.foldl (fun o i => andThen o (exec i)) (.next s) = extractFields s := by
  simp only [extractions, List.foldl_cons, List.foldl_nil, andThen_assoc]
  rfl

/-- The one-based channel does not wrap in its three bits (R105). -/
theorem toNat_setWidth_add_one (c : BitVec 2) : (c.setWidth 3 + 1#3).toNat = c.toNat + 1 := by
  have hc := c.isLt
  simp only [BitVec.toNat_add, BitVec.toNat_setWidth, BitVec.toNat_ofNat]
  omega

/-- Settles O42: the extractions set the fields of the claimed record, which is the record of the frame word. -/
theorem extractionsFollowTheFrameLayout : Obligations.ExtractionsFollowTheFrameLayout := by
  intro s hn hl
  have hrec := claimedRecord_eq_frameRecord s
  refine ⟨_, (foldl_extractions_eq_extractFields s).trans (extractFields_eq hn hl), rfl,
    congrArg Record.temperature hrec, congrArg Record.humidity hrec, congrArg Record.rc hrec, ?_,
    congrArg Record.battery hrec, congrArg Record.unknown1 hrec, congrArg Record.unknown2 hrec⟩
  exact (congrArg (fun r => r.channel.toNat) hrec).trans (toNat_setWidth_add_one _)

/-! ## The request word (R60, R64, R146) -/

/-- Settles O19: every operation encodes to 1, which selects DECODE, the one well-formed request. -/
theorem requestBitSelectsDecodeAlone : Obligations.RequestBitSelectsDecodeAlone := by
  refine ⟨decode_one, decode_zero, fun i => ?_, fun w i h => (decode_selects h).1.symm⟩
  rw [Instr.wf_iff_decode, encode, decode_one, DecodeResult.selects.injEq, eq_comm]

/-- A step whose request word selects an operation, with no reset, is the meaning of that operation. -/
theorem step_of_selects {s d : State} {i : Instr} (hd : s.drive = some d) (hr : d.rst ≠ 1#1)
    (hi : decode d.req = .selects i) : step s = exec i d := by
  simp only [step, controlStep, hd, hr, hi, if_false]

/-- Settles O4: a request word runs what it selects; without one, a held BUSY block completes. -/
theorem stepRunsTheDecodedOperation : Obligations.StepRunsTheDecodedOperation := by
  refine ⟨fun s d i hd hr hi _ => step_of_selects hd hr hi, fun s d hd hr hi hp hbuf hts => ?_⟩
  have hq : d.req ≠ 1#1 := by rw [decode_noRequest.1 hi]; decide
  exact step_of_held hd hr hp hq ⟨hbuf, hts⟩

/-- Settles O20: the layouts evaluated on these words. -/
theorem writtenWordsDecode : Obligations.WrittenWordsDecode :=
  ⟨rfl, rfl, by decide⟩

end Sys2Proof.Machine
end

section
/-! SUPPORT. The validator (40_validator.md): the length guard under each scope, each byte check in and out of bounds, and
their conjunction. -/

namespace Sys2Proof.Machine

open Sys2Proof

/-! ## The length guard (R81) -/

section LengthGuard

variable {buf : BitBuffer}

theorem lengthGuard_first13_iff :
    lengthGuard .first13 buf = true ↔ 13 ≤ buf.numRows ∧ ∀ r, r < 13 → 5 ≤ buf.rowLen r := by
  simp only [lengthGuard, Bool.and_eq_true, decide_eq_true_eq, List.all_eq_true, List.mem_range]

theorem lengthGuard_accessed_iff :
    lengthGuard .accessed buf = true ↔
      13 ≤ buf.numRows ∧ 1 ≤ buf.rowLen 0 ∧ 5 ≤ buf.rowLen 1 ∧ 5 ≤ buf.rowLen 12 := by
  simp only [lengthGuard, Bool.and_eq_true, decide_eq_true_eq, and_assoc]

theorem lengthGuard_allRows_iff :
    lengthGuard .allRows buf = true ↔ 13 ≤ buf.numRows ∧ ∀ r, r < buf.numRows → 5 ≤ buf.rowLen r := by
  simp only [lengthGuard, Bool.and_eq_true, decide_eq_true_eq, List.all_eq_true, List.mem_range]

end LengthGuard

/-- Settles O25: CHK_LEN sets `len_ok` to the guard under the build's scope. -/
theorem lengthGuardUnderEachScope : Obligations.LengthGuardUnderEachScope := by
  refine ⟨rfl, fun s => ⟨_, rfl, rfl, ?_⟩⟩
  simp only [State.onSig_sig]
  cases s.build.scope with
  | first13 => exact lengthGuard_first13_iff
  | accessed => exact lengthGuard_accessed_iff
  | allRows => exact lengthGuard_allRows_iff

/-- Settles O31: the seven addresses lie in rows 0, 1 and 12, at bytes the guard has counted. -/
theorem lengthGuardPutsEveryReadInBounds : Obligations.LengthGuardPutsEveryReadInBounds := by
  intro scope buf hguard
  obtain ⟨hrows, h0, h1, h12⟩ := lengthGuard_rows hguard
  simp only [Instr.reads, List.forall_mem_cons, BitBuffer.inBounds, List.not_mem_nil, false_imp_iff,
    implies_true, and_true]
  omega

/-! ## The byte checks by themselves (R82 to R85) -/

section ByteChecks

variable {s : State} {c : Bool}

theorem exec_chkPreamble_of_eq (h : preambleZero s.buffer = c) :
    exec .chkPreamble s = .next { s with sig := { s.sig with preOk := c } } := h ▸ rfl

theorem exec_chkNonzero_of_eq (h : byte4Nonzero s.buffer = c) :
    exec .chkNonzero s = .next { s with sig := { s.sig with nzOk := c } } := h ▸ rfl

theorem exec_chkMask_of_eq (h : maskBitsSet s.buffer = c) :
    exec .chkMask s = .next { s with sig := { s.sig with maskOk := c } } := h ▸ rfl

theorem exec_chkRepeat_of_eq (h : byte4Repeats s.buffer = c) :
    exec .chkRepeat s = .next { s with sig := { s.sig with repOk := c } } := h ▸ rfl

end ByteChecks

/-- Settles O26: a byte is zero as a word exactly when it is as a number. -/
theorem chkPreambleTestsForZero : Obligations.ChkPreambleTestsForZero := by
  intro s h
  exact exec_chkPreamble_of_eq ((preambleZero_of_inBounds h).trans (decide_eq_decide.2 BitVec.toNat_eq))

/-- Settles O27: a byte is non-zero as a word exactly when it is as a number. -/
theorem chkNonzeroTestsTheWholeByte : Obligations.ChkNonzeroTestsTheWholeByte := by
  intro s h
  exact exec_chkNonzero_of_eq ((byte4Nonzero_of_inBounds h).trans (decide_eq_decide.2 BitVec.toNat_ne))

/-- The mask `0b01111000` keeps bits 6 to 3 and no other (R84). -/
theorem decide_and_valMask_ne_zero_eq_or_bits (v : Byte) :
    decide (v &&& 0x78#8 ≠ 0#8) = (v.getLsbD 6 || v.getLsbD 5 || v.getLsbD 4 || v.getLsbD 3) := by
  revert v
  decide

/-- Settles O28: in bounds, CHK_MASK tests the masked byte. -/
theorem chkMaskTestsBitsSixToThree : Obligations.ChkMaskTestsBitsSixToThree := by
  intro s h
  exact exec_chkMask_of_eq ((maskBitsSet_of_inBounds h).trans (decide_and_valMask_ne_zero_eq_or_bits _))

/-- Settles O29: two bytes are equal as words exactly when they are as numbers. -/
theorem chkRepeatComparesByteFour : Obligations.ChkRepeatComparesByteFour := by
  intro s h h'
  exact exec_chkRepeat_of_eq ((byte4Repeats_of_inBounds h h').trans (decide_eq_decide.2 BitVec.toNat_eq))

/-- A bounds-aware condition fails on a byte that is not there (R80, R151). -/
theorem byteCheck_of_not_inBounds {buf : BitBuffer} {r b : Nat} {p : Byte → Bool} (h : ¬ buf.inBounds r b) :
    byteCheck buf r b p = false :=
  Bool.eq_false_iff.2 fun hp => h (byteCheck_eq_true.1 hp).1

/-- CHK_REPEAT needs both bytes: the inner condition on row 12 fails it too. -/
theorem byte4Repeats_of_not_inBounds {buf : BitBuffer} (h : ¬ buf.inBounds 1 4 ∨ ¬ buf.inBounds 12 4) :
    byte4Repeats buf = false := by
  refine Bool.eq_false_iff.2 fun hp => ?_
  obtain ⟨h1, hp12⟩ := byteCheck_eq_true.1 hp
  obtain ⟨h12, -⟩ := byteCheck_eq_true.1 hp12
  exact h.elim (· h1) (· h12)

/-- Settles O30: each check is a bounds-aware condition, CHK_REPEAT two of them. -/
theorem byteChecksFailOutOfBounds : Obligations.ByteChecksFailOutOfBounds :=
  ⟨fun _ h => exec_chkPreamble_of_eq (byteCheck_of_not_inBounds h),
    fun _ h => exec_chkNonzero_of_eq (byteCheck_of_not_inBounds h),
    fun _ h => exec_chkMask_of_eq (byteCheck_of_not_inBounds h),
    fun _ h => exec_chkRepeat_of_eq (byte4Repeats_of_not_inBounds h)⟩

/-! ## VALIDATE (R80) -/

/-- Settles O24: a passed guard puts the four checked bytes in bounds, so each check is its condition on the stored byte. -/
theorem validateIsTheConjunction : Obligations.ValidateIsTheConjunction := by
  intro s
  refine (execValidate_eq s).trans ?_
  by_cases hguard : lengthGuard s.build.scope s.buffer = true
  · have hin := lengthGuardPutsEveryReadInBounds _ _ hguard
    have h00 := hin (0, 0) (by decide)
    have h13 := hin (1, 3) (by decide)
    have h14 := hin (1, 4) (by decide)
    have h124 := hin (12, 4) (by decide)
    simp only [if_pos hguard, preambleZero_of_inBounds h00, byte4Nonzero_of_inBounds h14, maskBitsSet_of_inBounds h13,
      byte4Repeats_of_inBounds h14 h124, Bool.decide_and, Bool.and_assoc]
    rfl
  · simp only [if_neg hguard]
    rfl

end Sys2Proof.Machine
end

section
/-! SUPPORT. The extractor (41_extractor.md): each extraction by itself, the channel of a record handed off, and which bit of
the frame word reaches which field. -/

namespace Sys2Proof.Machine

open Sys2Proof

/-! ## The temperature (R101, R102) -/

/-- A pattern left-aligned by four zero bits is sixteen times its signed value, so the shift back discards only zeros. -/
theorem toInt_append_four_zeros_div {n : Nat} (v : BitVec (n + 1)) : (v ++ 0#4).toInt / 16 = v.toInt := by
  have h : (v ++ 0#4).toInt = 16 * v.toInt := by simp [BitVec.toInt_append]
  omega

/-- Settles O34: `temp` is the 12-bit pattern b1[3:0] : b2, whose signed range is the one named. -/
theorem extTempShiftsTheSixteenBitWord : Obligations.ExtTempShiftsTheSixteenBitWord := by
  intro s h1 h2
  refine ⟨_, execExtTemp_eq h1 h2, ?_, ?_, BitVec.le_toInt _, Int.le_of_lt_add_one BitVec.toInt_lt⟩
  · rw [tempWord_eq]
    rfl
  · simp only [State.onSig_sig]
    rw [tempField_tempWord, tempWord_eq, toInt_append_four_zeros_div]

/-- Settles O35: an EXT_TEMP that answers had both its bytes, and its `temp` is b1[3:0] : b2. -/
theorem temperatureIsSignExtended : Obligations.TemperatureIsSignExtended := by
  intro s t h
  obtain ⟨hin, -⟩ | ⟨k, -, -, hfault⟩ := extractionStopsOnlyOutOfBounds .extTemp s (by decide)
  · rw [exec, execExtTemp_eq (hin (1, 1) (by decide)) (hin (1, 2) (by decide))] at h
    cases h
    refine ⟨_, rfl, tempField_tempWord _ _, ?_⟩
    simp only [State.onSig_sig, tempField_tempWord]
    exact BitVec.toInt_eq_msb_cond _
  · cases hfault.symm.trans h

/-! ## The other extractions (R103 to R108) -/

/-- The humidity as a number. -/
theorem humField_toNat (b3 b4 : Byte) : (humField b3 b4).toNat = b3.toNat % 16 * 16 + b4.toNat / 16 := by
  rw [humField_eq, BitVec.toNat_append, ← Nat.shiftLeft_add_eq_or_of_lt (BitVec.isLt _), Nat.shiftLeft_eq]
  simp only [BitVec.extractLsb'_toNat, Nat.shiftRight_eq_div_pow]
  omega

/-- Settles O36. -/
theorem extHumJoinsTwoNibbles : Obligations.ExtHumJoinsTwoNibbles :=
  fun _ h3 h4 => ⟨_, execExtHum_eq h3 h4, rfl, humField_toNat _ _⟩

/-- Settles O37: the field is the byte itself. -/
theorem extRcIsByteZero : Obligations.ExtRcIsByteZero :=
  fun _ h0 => execExtRc_eq h0

/-- Settles O38: two bits plus 1 are 1 to 4. -/
theorem extChIsOneBased : Obligations.ExtChIsOneBased := by
  intro s h1
  have hch := chField_toNat (s.buffer.bytes.read 1 1)
  refine ⟨_, execExtCh_eq h1, rfl, hch, ?_, ?_⟩ <;> simp only [State.onSig_sig] <;> omega

/-- Settles O39. -/
theorem extBattIsBitSeven : Obligations.ExtBattIsBitSeven := by
  intro s h1
  rw [← battField_eq]
  exact execExtBatt_eq h1

/-- Settles O40. -/
theorem extUnk1IsBitSix : Obligations.ExtUnk1IsBitSix := by
  intro s h1
  rw [← unk1Field_eq]
  exact execExtUnk1_eq h1

/-- Settles O41. -/
theorem extUnk2IsTheHighNibble : Obligations.ExtUnk2IsTheHighNibble := by
  intro s h3
  rw [← unk2Field_eq]
  exact execExtUnk2_eq h3

/-! ## The channel on the ports (R27, R105) -/

/-- Settles O48: of the outcomes of a step, only a claim has `emit` = 1, and the record it puts on the ports is legal. -/
theorem handedOffChannelIsOneToFour : Obligations.HandedOffChannelIsOneToFour := by
  intro s t h hemit
  obtain ⟨d, -, hcases⟩ := step_cases h
  rcases hcases with ⟨-, rfl⟩ | ⟨-, -, -, rfl⟩ | ⟨-, -, -, rfl⟩ | ⟨-, -, -, -, -, ⟨-, rfl⟩ | ⟨-, rfl⟩⟩
  case inr.inr.inr.inl => exact (claimedRecord_legal d).2
  all_goals exact absurd hemit (by decide : (0#1 : Bit) ≠ 1#1)

/-! ## The bits of the frame word (R109) -/

/-- Two words agree under a mask of the bits `k` to `k + n - 1` exactly when their fields of those bits are equal. -/
theorem and_mask_eq_iff_extractLsb'_eq {l k n : Nat} {m : BitVec l}
    (hm : ∀ i < l, m.getLsbD i = decide (k ≤ i ∧ i < k + n)) (w w' : BitVec l) :
    w &&& m = w' &&& m ↔ w.extractLsb' k n = w'.extractLsb' k n := by
  refine ⟨fun h => BitVec.eq_of_getLsbD_eq fun i hi => ?_, fun h => BitVec.eq_of_getLsbD_eq fun i hi => ?_⟩
  · have hbit := congrArg (BitVec.getLsbD · (k + i)) h
    by_cases hl : k + i < l
    · simpa [hm _ hl, hi] using hbit
    · simp [BitVec.getLsbD_of_ge _ _ (not_lt.1 hl)]
  · rw [BitVec.getLsbD_and, BitVec.getLsbD_and, hm i hi]
    by_cases hk : k ≤ i ∧ i < k + n
    · have hbit := congrArg (BitVec.getLsbD · (i - k)) h
      simpa [hk, Nat.sub_lt_left_of_lt_add hk.1 hk.2] using hbit
    · simp [hk]

/-- What an extraction makes of the signals, given the buffer: each sets its operand bytes and its field as all seven together
do; the other operations are no extractions. -/
def extractionEffect (i : Instr) (buf : BitBuffer) (g : Signals) : Signals :=
  let all := g.extracted (buf.bytes.read 1 0) (buf.bytes.read 1 1) (buf.bytes.read 1 2) (buf.bytes.read 1 3)
    (buf.bytes.read 1 4)
  match i with
  | .extTemp => { g with b1 := all.b1, b2 := all.b2, t16 := all.t16, temp := all.temp }
  | .extHum => { g with b3 := all.b3, b4 := all.b4, hum := all.hum }
  | .extRc => { g with b0 := all.b0, rc := all.rc }
  | .extCh => { g with b1 := all.b1, ch := all.ch }
  | .extBatt => { g with b1 := all.b1, batt := all.batt }
  | .extUnk1 => { g with b1 := all.b1, unk1 := all.unk1 }
  | .extUnk2 => { g with b3 := all.b3, unk2 := all.unk2 }
  | .decode | .validate | .chkLen | .chkPreamble | .chkNonzero | .chkMask | .chkRepeat | .buildRecord => g

/-- With the frame row at least five bytes long, an extraction answers, with its effect on the signals. -/
theorem exec_extraction_eq {i : Instr} {s : State} (hi : i ∈ extractions) (hn : 1 < s.buffer.numRows)
    (hl : 5 ≤ s.buffer.rowLen 1) : exec i s = .next (s.onSig (extractionEffect i s.buffer)) := by
  have hin : ∀ k < 5, s.buffer.inBounds 1 k := fun k hk => ⟨hn, hk.trans_le hl⟩
  cases i with
  | extTemp => exact execExtTemp_eq (hin 1 (by decide)) (hin 2 (by decide))
  | extHum => exact execExtHum_eq (hin 3 (by decide)) (hin 4 (by decide))
  | extRc => exact execExtRc_eq (hin 0 (by decide))
  | extCh => exact execExtCh_eq (hin 1 (by decide))
  | extBatt => exact execExtBatt_eq (hin 1 (by decide))
  | extUnk1 => exact execExtUnk1_eq (hin 1 (by decide))
  | extUnk2 => exact execExtUnk2_eq (hin 3 (by decide))
  | decode | validate | chkLen | chkPreamble | chkNonzero | chkMask | chkRepeat | buildRecord =>
    exact absurd hi (by decide)

/-- Two effects share at most an operand byte, and both set it to the byte of the frame row. -/
theorem extractionEffect_comm (i j : Instr) (buf : BitBuffer) (g : Signals) :
    extractionEffect j buf (extractionEffect i buf g) = extractionEffect i buf (extractionEffect j buf g) := by
  cases i <;> cases j <;> rfl

/-- An extraction does not touch the buffer, so a second one answers after it. -/
theorem andThen_exec_extractions_eq {i j : Instr} {s : State} (hi : i ∈ extractions) (hj : j ∈ extractions)
    (hn : 1 < s.buffer.numRows) (hl : 5 ≤ s.buffer.rowLen 1) :
    andThen (exec i s) (exec j) =
      .next (s.onSig fun g => extractionEffect j s.buffer (extractionEffect i s.buffer g)) := by
  rw [exec_extraction_eq hi hn hl, andThen_next]
  exact exec_extraction_eq (s := s.onSig _) hj hn hl

/-- Settles O23: each mask is the bits of its field in the layout, and the effects of two extractions commute. -/
theorem eachFrameBitFeedsOneField : Obligations.EachFrameBitFeedsOneField := by
  refine ⟨by decide, by decide, fun w w' => ?_, fun i j s hi hj hn hl => ?_⟩
  · refine ⟨?_, ?_, ?_, ?_, ?_, ?_, ?_⟩ <;> exact and_mask_eq_iff_extractLsb'_eq (by decide) w w'
  · simp only [andThen_exec_extractions_eq hi hj hn hl, andThen_exec_extractions_eq hj hi hn hl,
      extractionEffect_comm i j]

end Sys2Proof.Machine
end

section
/-! SUPPORT. The record builder (42_record_builder.md): the one handoff of a claim, the record assembled, and its texts. -/

namespace Sys2Proof.Machine

open Sys2Proof

/-! ## The handoff (R128) -/

/-- Settles O9: of the outcomes of a step, only a claim hands off, and the verdict that separates it from a reject is R62's
table of conditions. -/
theorem handoffOnceForEachClaim : Obligations.HandoffOnceForEachClaim := by
  intro s t h
  obtain ⟨d, hd, hcases⟩ := step_cases h
  obtain ⟨-, -, -, -, -, -, -, -, hsink, -⟩ := drive_unchanged hd
  have hne : (0#1 : Bit) ≠ 1#1 := by decide
  rcases hcases with ⟨-, rfl⟩ | ⟨-, -, -, rfl⟩ | ⟨-, -, -, rfl⟩ | ⟨-, -, -, -, -, ⟨hv, rfl⟩ | ⟨hv, rfl⟩⟩
  case inr.inr.inr.inl =>
    rw [verdict_eq_accepts] at hv
    exact ⟨.inl ⟨rfl, claimedRecord d, congrArg (· ++ [claimedRecord d]) hsink, rfl⟩, fun _ => rfl,
      fun _ => iff_of_true rfl hv⟩
  case inr.inr.inr.inr =>
    rw [verdict_eq_accepts] at hv
    exact ⟨.inr ⟨rfl, hsink⟩, fun hemit => absurd hemit hne, fun _ => iff_of_false hne (Bool.eq_false_iff.1 hv)⟩
  all_goals exact ⟨.inr ⟨rfl, hsink⟩, fun hemit => absurd hemit hne, fun hdone => absurd hdone hne⟩

/-! ## The assembled record (R120) -/

/-- Settles O44: `execBuildRecord` writes the ports and the local record, and no other field. -/
theorem buildRecordAssemblesTheFields : Obligations.BuildRecordAssemblesTheFields :=
  fun _ => ⟨_, rfl, rfl, rfl⟩

/-! ## Numerals and the battery (R124 to R126) -/

theorem decText_eq_toString (n : Nat) : decText n = toString n :=
  Nat.toString_eq_ofList_toDigits.symm

@[simp] theorem decText_toList (n : Nat) : (decText n).toList = Nat.toDigits 10 n :=
  String.toList_ofList

/-- Settles O47: the battery's two texts are the branches of `renderBattery`; the other four texts are numerals. -/
theorem batteryAndIntegerTexts : Obligations.BatteryAndIntegerTexts := by
  intro r
  exact ⟨fun hok => if_pos hok, fun hlow => if_neg (by rw [hlow]; decide), decText_eq_toString _, decText_eq_toString _,
    decText_eq_toString _, decText_eq_toString _⟩

/-- Settles O54: the numeral, and the annotation in a field of its own. -/
theorem humidityTextIsTheBareNumeral : Obligations.HumidityTextIsTheBareNumeral :=
  fun _ => ⟨decText_eq_toString _, rfl⟩

/-! ## The temperature (R123) -/

/-- The rendered temperature, character by character. -/
theorem renderTenths_toList (t : Int) :
    (renderTenths t).toList =
      (if t < 0 then ['-'] else []) ++ Nat.toDigits 10 (t.natAbs / 10) ++ ['.', Nat.digitChar (t.natAbs % 10)] := by
  have htenths : Nat.toDigits 10 (t.natAbs % 10) = [Nat.digitChar (t.natAbs % 10)] :=
    Nat.toDigits_of_lt_base (Nat.mod_lt _ (by decide))
  split_ifs with hneg <;> simp [renderTenths, hneg, htenths]

/-- Settles O45: the whole degrees and the tenths are quotient and remainder of the magnitude by 10. -/
theorem temperatureHasOneFractionalDigit : Obligations.TemperatureHasOneFractionalDigit := by
  intro r
  exact ⟨_, _, Nat.mod_lt _ (by decide), (Nat.div_add_mod _ 10).symm, renderTenths_toList _⟩

/-- The minus sign can be read off the text: a numeral holds only digits. -/
theorem minus_mem_renderTenths_iff (t : Int) : '-' ∈ (renderTenths t).toList ↔ t < 0 := by
  have hwhole : '-' ∉ Nat.toDigits 10 (t.natAbs / 10) := fun h =>
    absurd (Nat.isDigit_of_mem_toDigits (by decide) le_rfl h) (by decide)
  have htenths : '-' ≠ Nat.digitChar (t.natAbs % 10) := (Nat.digitChar_ne '-' (by decide)).symm
  rw [renderTenths_toList]
  split_ifs with hneg <;> simp [hwhole, htenths, hneg]

/-- The magnitude can be read off the text: its digits, without the sign and the point, are a decimal numeral of it. -/
theorem ofDigitChars_filter_renderTenths (t : Int) :
    Nat.ofDigitChars 10 ((renderTenths t).toList.filter Char.isDigit) 0 = t.natAbs := by
  have hwhole : (Nat.toDigits 10 (t.natAbs / 10)).filter Char.isDigit = Nat.toDigits 10 (t.natAbs / 10) :=
    List.filter_eq_self.2 fun _ => Nat.isDigit_of_mem_toDigits (by decide) le_rfl
  have hlt : t.natAbs % 10 < 10 := Nat.mod_lt _ (by decide)
  have hsign : (if t < 0 then ['-'] else []).filter Char.isDigit = [] := by split_ifs <;> rfl
  have htenths : ['.', Nat.digitChar (t.natAbs % 10)].filter Char.isDigit = [Nat.digitChar (t.natAbs % 10)] := by
    simp [Nat.isDigit_digitChar, hlt]
  calc Nat.ofDigitChars 10 ((renderTenths t).toList.filter Char.isDigit) 0
    _ = Nat.ofDigitChars 10 (Nat.toDigits 10 (t.natAbs / 10) ++ [Nat.digitChar (t.natAbs % 10)]) 0 := by
      rw [renderTenths_toList, List.filter_append, List.filter_append, hsign, hwhole, htenths, List.nil_append]
    _ = 10 * (t.natAbs / 10) + t.natAbs % 10 := by
      rw [Nat.ofDigitChars_append, Nat.ofDigitChars_ten_toDigits, Nat.ofDigitChars_cons_digitChar_of_lt_ten hlt,
        Nat.ofDigitChars_nil]
    _ = t.natAbs := Nat.div_add_mod _ 10

theorem renderTenths_injective : Function.Injective renderTenths := by
  intro t t' h
  have hmag : t.natAbs = t'.natAbs := by
    rw [← ofDigitChars_filter_renderTenths t, h, ofDigitChars_filter_renderTenths]
  have hsign : t < 0 ↔ t' < 0 := by
    rw [← minus_mem_renderTenths_iff t, h, minus_mem_renderTenths_iff]
  omega

/-- Settles O46: the text determines the integer, and the integer the 12-bit pattern. -/
theorem renderedTemperatureDeterminesTheValue : Obligations.RenderedTemperatureDeterminesTheValue :=
  fun _ _ h => BitVec.eq_of_toInt_eq (renderTenths_injective h)

end Sys2Proof.Machine
end

section
/-! SUPPORT. The DECODE transaction (43_decode.md): what DECODE does with a request and in a completion, the rows of the step
relation, the completion event, and the host's `DECODE` lines from the request to the completion. -/

namespace Sys2Proof.Machine

open Sys2Proof

/-! ## DECODE (R140, R143) -/

theorem exec_decode_of_idle_request {s : State} (hp : s.phase = .idle) (hq : s.req = 1#1) :
    exec .decode s = .next s.accept := by
  simp [exec_decode_eq, hp, hq]

/-- Settles O49: a request is accepted; a completion finishes with the outcome of R143's function, a claim or a reject. -/
theorem decodeIsTheOutcomeFunction : Obligations.DecodeIsTheOutcomeFunction := by
  refine ⟨fun s hp hq => ⟨_, exec_decode_of_idle_request hp hq, rfl, rfl, rfl, rfl, rfl, rfl, rfl, rfl⟩,
    fun s hp hq => ⟨_, exec_decode_of_busy hp hq, ?_⟩⟩
  cases decodeBuffer s.build.scope s.buffer s.ts with
  | some r => exact ⟨rfl, rfl, rfl, rfl, rfl, rfl, rfl, rfl, rfl, rfl⟩
  | none => exact ⟨rfl, rfl, rfl, rfl, rfl, rfl, rfl, rfl, rfl⟩

@[simp] theorem State.finish_phase (s : State) (o : Option Record) : (s.finish o).phase = .idle := by
  cases o <;> rfl

@[simp] theorem State.finish_done (s : State) (o : Option Record) : (s.finish o).done = 1#1 := by
  cases o <;> rfl

@[simp] theorem State.finish_sink (s : State) (o : Option Record) : (s.finish o).sink = s.sink ++ o.toList := by
  cases o with
  | some r => rfl
  | none => exact (List.append_nil _).symm

/-! ## The rows of the step relation (R146) -/

section Rows

variable {s d : State}

/-- `rst` wins over the request and the phase. -/
theorem step_of_rst (hd : s.drive = some d) (hr : d.rst = 1#1) : step s = .next d.applyReset := by
  simp only [step, controlStep, hd, hr, if_true]

theorem step_of_request (hd : s.drive = some d) (hr : d.rst ≠ 1#1) (hq : d.req = 1#1) : step s = exec .decode d :=
  step_of_selects hd hr (hq ▸ decode_one)

/-- The ports under a host that holds everything stable, its line taken from the script. -/
def State.held (s : State) : State :=
  { s with req := 0#1, rst := 0#1, script := s.script.tail }

/-- An empty script and the line `WAIT` hold everything stable (log 1). -/
theorem drive_eq_held (hs : s.script = [] ∨ ∃ rest, s.script = .wait :: rest) : s.drive = some s.held := by
  obtain hs | ⟨rest, hs⟩ := hs <;> rw [State.drive, State.held, hs] <;> rfl

/-- A BUSY block under a host that holds everything stable completes in that step (log 21). -/
theorem step_of_busy_held (hp : s.phase = .busy) (hs : s.script = [] ∨ ∃ rest, s.script = .wait :: rest) :
    step s = .next (s.held.finish (decodeBuffer s.build.scope s.buffer s.ts)) := by
  have hr : s.held.rst ≠ 1#1 := (by decide : (0#1 : Bit) ≠ 1#1)
  have hq : s.held.req ≠ 1#1 := (by decide : (0#1 : Bit) ≠ 1#1)
  rw [step_of_held (drive_eq_held hs) hr hp hq ⟨BitBuffer.sameAs_rfl _, rfl⟩]
  exact exec_decode_of_busy hp hq

end Rows

/-- Settles O3: each row is the step lemma of its case. In a completion the driven buffer may differ from the one that stood
at the ports, but only out of bounds, where R143's function does not look. -/
theorem stepFollowsTheRelation : Obligations.StepFollowsTheRelation := by
  refine ⟨fun s hp hs => ⟨_, step_of_busy_held hp (.inl hs), State.finish_done _ _⟩, fun s d hd => ?_⟩
  obtain ⟨-, -, -, -, -, -, hbuild, -, hsink, -⟩ := drive_unchanged hd
  refine ⟨fun hr hp hq => ?_, fun hr hp hq => ?_, fun hr hp hq hbuf hts => ?_, fun hr hp hq => ?_,
    fun hr hp hq hchanged => ?_, fun hr => ?_⟩
  · obtain ⟨t, ht, hbusy, hdone, hemit, htsink, htbuf, htts, -⟩ := decodeIsTheOutcomeFunction.1 d hp hq
    exact ⟨t, (step_of_request hd hr hq).trans ht, hbusy, hdone, hemit, htsink.trans hsink, htbuf, htts⟩
  · exact ⟨_, step_of_idle hd hr hp hq, hp, rfl, rfl, hsink, rfl, rfl⟩
  · obtain ⟨t, ht, hidle, hdone, -, -, -, -, hout⟩ := decodeIsTheOutcomeFunction.2 d hp hq
    rw [hbuild, hts, hsink, decodeBuffer_sameAs hbuf] at hout
    exact ⟨t, (step_of_held hd hr hp hq ⟨hbuf, hts⟩).trans ht, hidle, hdone, hout⟩
  · rw [step_of_request hd hr hq, exec_decode_eq, if_pos hq, if_pos hp]
  · exact step_of_not_held hd hr hp hq (not_and_or.2 hchanged)
  · exact ⟨_, step_of_rst hd hr, rfl, rfl, rfl, hsink, rfl⟩

/-! ## The completion event (R141) -/

section Completion

variable {s t : State}

/-- A step completes exactly when it is from BUSY and no reset cuts it short. -/
theorem step_done_iff (h : step s = .next t) : t.done = 1#1 ↔ s.phase = .busy ∧ t.rst ≠ 1#1 := by
  obtain ⟨d, hd, hcases⟩ := step_cases h
  obtain ⟨hphase, -⟩ := drive_unchanged hd
  have hne : (0#1 : Bit) ≠ 1#1 := by decide
  rcases hcases with ⟨hr, rfl⟩ | ⟨-, hp, -, rfl⟩ | ⟨-, hp, -, rfl⟩ | ⟨hr, hp, -, -, -, ⟨-, rfl⟩ | ⟨-, rfl⟩⟩
  case inl => exact iff_of_false hne fun ⟨_, hr'⟩ => hr' hr
  case inr.inl | inr.inr.inl => exact iff_of_false hne fun ⟨hbusy, _⟩ => nomatch hp.symm.trans (hphase.trans hbusy)
  case inr.inr.inr.inl | inr.inr.inr.inr => exact iff_of_true rfl ⟨hphase.symm.trans hp, hr⟩

/-- A completion leaves the block IDLE, with `emit` = `ret`. -/
theorem step_of_done (h : step s = .next t) (hdone : t.done = 1#1) : t.phase = .idle ∧ t.emit = t.ret := by
  obtain ⟨d, -, hcases⟩ := step_cases h
  rcases hcases with ⟨-, rfl⟩ | ⟨-, -, -, rfl⟩ | ⟨-, -, -, rfl⟩ | ⟨-, -, -, -, -, ⟨-, rfl⟩ | ⟨-, rfl⟩⟩
  case inr.inr.inr.inl | inr.inr.inr.inr => exact ⟨rfl, rfl⟩
  all_goals exact absurd hdone (by decide : (0#1 : Bit) ≠ 1#1)

end Completion

/-- Settles O8: when a step completes and how it leaves the block; the clauses on `emit` are those of the handoff. -/
theorem doneExactlyInACompletion : Obligations.DoneExactlyInACompletion := by
  intro s t h
  have hiff := step_done_iff h
  obtain ⟨hhandoff, hemit, -⟩ := handoffOnceForEachClaim s t h
  refine ⟨⟨fun hdone => ?_, fun ⟨hbusy, _, hr⟩ => hiff.2 ⟨hbusy, hr⟩⟩, fun hbusy hr => ?_,
    fun hdone => (step_of_done h hdone).2, fun he => ?_, fun hdone => ?_⟩
  · exact ⟨(hiff.1 hdone).1, (step_of_done h hdone).1, (hiff.1 hdone).2⟩
  · have hdone := hiff.2 ⟨hbusy, hr⟩
    exact ⟨hdone, (step_of_done h hdone).1⟩
  · obtain ⟨-, hrecord⟩ | ⟨he0, -⟩ := hhandoff
    · exact hrecord
    · exact absurd (he0.symm.trans he) (by decide)
  · obtain ⟨he, -⟩ | ⟨he0, -⟩ := hhandoff
    · exact absurd (hemit he) hdone
    · exact he0

/-! ## The host's `DECODE` lines (R70, R143, R144) -/

section DecodeLines

variable {s : State} {t : TS} {rest : List HostLine}

/-- The ports under a host that requests with the timestamp `t`, its line taken from the script. -/
def State.requested (s : State) (t : TS) : State :=
  { s with req := 1#1, rst := 0#1, ts := t, script := s.script.tail }

theorem drive_eq_requested (hs : s.script = .request t :: rest) : s.drive = some (s.requested t) := by
  rw [State.drive, State.requested, hs]
  rfl

/-- The host's `REQ` line to an IDLE block is accepted. -/
theorem step_of_idle_request (hp : s.phase = .idle) (hs : s.script = .request t :: rest) :
    step s = .next (s.requested t).accept :=
  (step_of_request (drive_eq_requested hs) (by decide : (0#1 : Bit) ≠ 1#1) rfl).trans (exec_decode_of_idle_request hp rfl)

theorem run_succ_of_step {u : State} (h : step s = .next u) (n : Nat) : core.run (n + 1) s = core.run n u := by
  simp only [core, Host.Core.run, h]

/-- The lines of a DECODE to an IDLE block are one transaction: after two steps it has completed, with the outcome of R143's
function handed off, and the run goes on from there. -/
theorem run_decodeLines (hp : s.phase = .idle) (hs : s.script = decodeLines t ++ rest) :
    ∃ u, (∀ n, core.run (n + 2) s = core.run n u) ∧ u.phase = .idle ∧ u.done = 1#1 ∧
      u.sink = s.sink ++ (decodeBuffer s.build.scope s.buffer t).toList ∧
      u.buffer = s.buffer ∧ u.ts = t ∧ u.build = s.build ∧ u.script = rest := by
  have hscript : (s.requested t).accept.script = .wait :: rest := congrArg List.tail hs
  have hreq := step_of_idle_request hp hs
  have hwait := step_of_busy_held rfl (.inr ⟨rest, hscript⟩)
  obtain ⟨hbuf, hts, -, -, hbuild, hrest⟩ := State.finish_sameInputs (s.requested t).accept.held
    (decodeBuffer s.build.scope s.buffer t)
  exact ⟨_, fun n => (run_succ_of_step hreq (n + 1)).trans (run_succ_of_step hwait n), State.finish_phase _ _,
    State.finish_done _ _, State.finish_sink _ _, hbuf, hts, hbuild, hrest.trans (congrArg List.tail hscript)⟩

end DecodeLines

/-- Settles O7: the two lines are one transaction, whatever the buffer holds. -/
theorem everyDecodeCompletesInTwoSteps : Obligations.EveryDecodeCompletesInTwoSteps := by
  intro s t rest hp hs
  obtain ⟨u, hrun, hidle, hdone, -, hbuf, hts, -, hscript⟩ := run_decodeLines hp hs
  exact ⟨u, hrun 0, hdone, hidle, hts, hbuf, hscript⟩

/-- Settles O51: the first transaction leaves the buffer and the scope as they are, so R143's function has one outcome for
both. -/
theorem decodingTwiceGivesTheSameRecord : Obligations.DecodingTwiceGivesTheSameRecord := by
  intro s t hp hs
  obtain ⟨u, hrun, hidle, -, hsink, hbuf, -, hbuild, hscript⟩ := run_decodeLines hp hs
  obtain ⟨v, hrun', hidle', -, hsink', -⟩ := run_decodeLines (rest := []) hidle (hscript.trans (List.append_nil _).symm)
  refine ⟨v, (hrun 2).trans (hrun' 0), hidle', ?_⟩
  rw [hsink', hsink, hbuf, hbuild, List.append_assoc]
  cases decodeBuffer s.build.scope s.buffer t with
  | some r => exact .inr ⟨r, rfl⟩
  | none => exact .inl (List.append_nil _)

end Sys2Proof.Machine
end

section
/-! SUPPORT. Exceptions (60_exceptions.md): nothing faults, a transaction is a Claim or a Reject, and a short buffer is a
Reject. -/

namespace Sys2Proof.Machine

open Sys2Proof

/-! ## No fault (R150) -/

/-- DECODE answers a next state, or refuses an overlapping request. -/
theorem exec_decode_ne_fault (s : State) (r : Fault) : exec .decode s ≠ .fault r := by
  rw [exec_decode_eq]
  split_ifs <;> exact nofun

/-- The rows of the step relation end in a next state or a refusal, or run DECODE. -/
theorem step_ne_fault (s : State) (r : Fault) : step s ≠ .fault r := by
  cases hd : s.drive with
  | none => rw [step_of_drive_eq_none hd]; exact nofun
  | some d =>
    by_cases hr : d.rst = 1#1
    · rw [step_of_rst hd hr]; exact nofun
    by_cases hq : d.req = 1#1
    · rw [step_of_request hd hr hq]; exact exec_decode_ne_fault d r
    cases hp : d.phase with
    | idle => rw [step_of_idle hd hr hp hq]; exact nofun
    | busy =>
      by_cases hheld : d.buffer.sameAs s.buffer ∧ d.ts = s.ts
      · rw [step_of_held hd hr hp hq hheld]; exact exec_decode_ne_fault d r
      · rw [step_of_not_held hd hr hp hq hheld]; exact nofun

/-- Settles O10: a completion finishes with the outcome of R143's function, which is a record exactly when validation
passes. -/
theorem noFaultOnlyClaimOrReject : Obligations.NoFaultOnlyClaimOrReject := by
  refine ⟨fun s r => ⟨step_ne_fault s r, exec_decode_ne_fault s r⟩, fun s hp hq => ?_⟩
  refine ⟨_, exec_decode_of_busy hp hq, State.finish_done _ _, ?_⟩
  rw [decodeBuffer]
  cases accepts s.build.scope s.buffer with
  | false => exact .inl ⟨rfl, rfl, rfl, rfl⟩
  | true => exact .inr ⟨rfl, rfl, rfl, frameRecord s.ts s.buffer.frame, rfl, rfl⟩

/-! ## A short buffer (R151) -/

theorem lengthGuard_eq_false_of_few_rows {buf : BitBuffer} (h : buf.numRows < 13) (scope : Config.LenGuardScope) :
    lengthGuard scope buf = false :=
  Bool.eq_false_iff.2 fun hguard => absurd (lengthGuard_rows hguard).1 (by omega)

theorem lengthGuard_first13_eq_false_of_short_row {buf : BitBuffer} {r : Nat} (hr : r < 13) (h : buf.rowLen r < 5) :
    lengthGuard .first13 buf = false :=
  Bool.eq_false_iff.2 fun hguard => absurd ((lengthGuard_first13_iff.1 hguard).2 r hr) (by omega)

/-- A failed length guard decides the transaction without a byte read. -/
theorem exec_decode_of_guard_failed {s : State} (hp : s.phase = .busy) (hq : s.req ≠ 1#1)
    (hg : lengthGuard s.build.scope s.buffer = false) : exec .decode s = .next s.reject := by
  rw [exec_decode_of_busy hp hq, decodeBuffer_of_guard_failed hg, State.finish]

/-- Settles O32: either shortness fails the length guard. -/
theorem shortBufferIsRejected : Obligations.ShortBufferIsRejected := by
  intro s hp hq hshort
  have hg : lengthGuard s.build.scope s.buffer = false := by
    obtain hrows | ⟨hscope, r, hr, hlen⟩ := hshort
    · exact lengthGuard_eq_false_of_few_rows hrows _
    · rw [hscope]
      exact lengthGuard_first13_eq_false_of_short_row hr hlen
  exact ⟨s.reject, exec_decode_of_guard_failed hp hq hg, rfl, rfl, rfl, rfl, rfl⟩

end Sys2Proof.Machine
end

section
/-! SUPPORT. Reset and hazards (70_reset_and_hazards.md): `rst`, a request while BUSY, and the inputs the host holds while
BUSY. -/

namespace Sys2Proof.Machine

open Sys2Proof

/-! ## Reset (R170) -/

theorem drive_reset {s : State} {rest : List HostLine} (hs : s.script = .reset :: rest) :
    s.drive = some { s with req := 0#1, rst := 1#1, script := rest } := by
  rw [State.drive, hs]
  rfl

/-- Settles O2: the host's `RESET` line drives only `rst`, which wins over the phase; reset touches neither the inputs nor
the sink. -/
theorem rstAbandonsAndReturnsToIdle : Obligations.RstAbandonsAndReturnsToIdle := by
  intro s rest hs
  exact ⟨_, step_of_rst (drive_reset hs) rfl, rfl, rfl, rfl, rfl, rfl, rfl, rfl, rfl, rfl⟩

/-! ## A request while BUSY (R175) -/

theorem exec_decode_of_busy_request {s : State} (hp : s.phase = .busy) (hq : s.req = 1#1) :
    exec .decode s = .refused .requestWhileBusy := by
  rw [exec_decode_eq, if_pos hq, if_pos hp]

/-- Settles O5: the host's `REQ` line runs DECODE on the BUSY block, which refuses it. -/
theorem requestWhileBusyIsRefused : Obligations.RequestWhileBusyIsRefused := by
  refine ⟨fun s t rest hp hs => ?_, fun s hp hq => exec_decode_of_busy_request hp hq⟩
  rw [step_of_request (drive_eq_requested hs) (by decide : (0#1 : Bit) ≠ 1#1) rfl]
  exact exec_decode_of_busy_request hp rfl

/-! ## A changed input while BUSY (R174) -/

theorem BitBuffer.bitsOf_eq_of_sameAs {buf old : BitBuffer} (h : buf.sameAs old) (r : Nat) : buf.bitsOf r = old.bitsOf r :=
  congrArg (sparseRead 0 · r) h.2.1

/-- Settles O52: each of the four changes breaks one part of what the step asks to be held. -/
theorem inputsAreHeldWhileBusy : Obligations.InputsAreHeldWhileBusy := by
  intro s d hp hd hr hq hchanged
  obtain ⟨hphase, -⟩ := drive_unchanged hd
  refine step_of_not_held hd hr (hphase.trans hp) hq fun ⟨hsame, hts⟩ => ?_
  obtain ⟨hrows, -, hread⟩ := BitBuffer.sameAs_iff_bufRead.1 hsame
  rcases hchanged with hne | ⟨r, hne⟩ | ⟨r, b, -, hne⟩ | hne
  · exact hne hrows
  · exact hne (BitBuffer.bitsOf_eq_of_sameAs hsame r)
  · exact hne (hread r b)
  · exact hne hts

/-! ## The host's lines while BUSY (R70, R174) -/

/-- Presenting a row leaves the buffer the same to the block exactly when the row has its length already and, where the row
is one of the buffer's, its bytes. -/
theorem BitBuffer.withRow_sameAs_iff {buf : BitBuffer} (hw : buf.wf) {r bits : Nat} {bytes : List Byte}
    (hlen : bytes.length = (bits + 7) / 8) :
    (buf.withRow r bits bytes).sameAs buf ↔ bits = buf.bitsOf r ∧
      (buf.numRows ≤ r ∨ ∀ (b : Nat) (h : b < bytes.length), bytes[b] = buf.bytes.read r b) := by
  constructor
  · intro hsame
    have hbits : bits = buf.bitsOf r := by
      rw [← bitsOf_eq_of_sameAs hsame r, withRow_bitsOf hw, if_pos rfl]
    refine ⟨hbits, (le_or_gt buf.numRows r).imp_right fun hr b hb => ?_⟩
    rw [← withRow_read_same hw r bits bytes hb]
    exact hsame.2.2 r hr b (by rwa [rowLen, ← hbits, ← hlen])
  · rintro ⟨rfl, hbytes⟩
    refine ⟨rfl, sparseWrite_self hw.2, fun r' hr' b hb => ?_⟩
    by_cases hr : r' = r
    · subst hr
      have hb' : b < bytes.length := hlen ▸ hb
      rw [withRow_read_same hw r' _ bytes hb']
      exact hbytes.resolve_left (by omega) b hb'
    · exact withRow_read_other hw r _ bytes hr b

/-- The ports under a host that presents a buffer and a timestamp, and drives neither `req` nor `rst`. -/
def State.presenting (s : State) (buf : BitBuffer) (t : TS) (rest : List HostLine) : State :=
  { s with req := 0#1, rst := 0#1, buffer := buf, ts := t, script := rest }

theorem drive_stamp {s : State} {t : TS} {rest : List HostLine} (hs : s.script = .stamp t :: rest) :
    s.drive = some (s.presenting s.buffer t rest) := by
  rw [State.drive, hs]
  rfl

section Presenting

variable {s : State} {buf : BitBuffer} {t : TS} {rest : List HostLine}

theorem step_of_busy_changed (hp : s.phase = .busy) (hd : s.drive = some (s.presenting buf t rest))
    (h : ¬ (buf.sameAs s.buffer ∧ t = s.ts)) : step s = .refused .inputChangedWhileBusy :=
  step_of_not_held hd (by decide : (0#1 : Bit) ≠ 1#1) hp (by decide : (0#1 : Bit) ≠ 1#1) h

theorem step_of_busy_unchanged (hp : s.phase = .busy) (hd : s.drive = some (s.presenting buf t rest))
    (hbuf : buf.sameAs s.buffer) (ht : t = s.ts) : ∃ u, step s = .next u ∧ u.done = 1#1 := by
  have hne : (0#1 : Bit) ≠ 1#1 := by decide
  exact ⟨_, (step_of_held hd hne hp hne ⟨hbuf, ht⟩).trans (exec_decode_of_busy hp hne), State.finish_done _ _⟩

end Presenting

/-- Settles O6: a line that drives only the buffer or the timestamp is refused or completes, as what it presents differs from
what stands at the ports or not; for a `ROW` line this is `withRow_sameAs_iff`. -/
theorem changedInputWhileBusyIsRefused : Obligations.ChangedInputWhileBusyIsRefused := by
  refine ⟨fun s n rest hp hs hn hne => ?rowsChanged, fun s r bits bytes rest hp hw hs hr hbits hlen hne => ?rowChanged,
    fun s t rest hp hs hne => ?stampChanged, fun s n rest hp hs hn heq => ?rowsSame,
    fun s r bits bytes rest hp hw hs hr hbits hlen hb hbytes => ?rowSame, fun s t rest hp hs heq => ?stampSame,
    fun s rest hp hs => ?held⟩
  case rowsChanged =>
    exact step_of_busy_changed hp ((drive_rows hs).trans (if_pos hn)) fun ⟨hsame, _⟩ => hne hsame.1
  case rowChanged =>
    refine step_of_busy_changed hp ((drive_row hs).trans (if_pos ⟨hr, hbits, hlen⟩)) fun ⟨hsame, _⟩ => ?_
    obtain ⟨hb, hbytes⟩ := (BitBuffer.withRow_sameAs_iff hw hlen).1 hsame
    obtain hne | ⟨hlt, b, hblt, hne⟩ := hne
    · exact hne hb
    · exact hne (hbytes.resolve_left (by omega) b hblt)
  case stampChanged => exact step_of_busy_changed hp (drive_stamp hs) fun ⟨_, hts⟩ => hne hts
  case rowsSame =>
    subst heq
    exact step_of_busy_unchanged hp ((drive_rows hs).trans (if_pos hn)) (BitBuffer.sameAs_rfl _) rfl
  case rowSame =>
    exact step_of_busy_unchanged hp ((drive_row hs).trans (if_pos ⟨hr, hbits, hlen⟩))
      ((BitBuffer.withRow_sameAs_iff hw hlen).2 ⟨hb, hbytes⟩) rfl
  case stampSame => exact step_of_busy_unchanged hp (drive_stamp hs) (BitBuffer.sameAs_rfl _) heq
  case held => exact ⟨_, step_of_busy_held hp (hs.symm.imp_right fun hs => ⟨rest, hs⟩), State.finish_done _ _⟩

end Sys2Proof.Machine
end
